-- ==== Sys2Proof/Word.lean ====
section
/-! DEFINITION. The two word types of the core (spec/00_scope.md R7, R10): memory bytes and 8-bit registers, and 16-bit
register pairs and addresses. -/

namespace Sys2Proof

/-- A `u8`: a memory byte or an 8-bit register (R7). -/
abbrev Byte := BitVec 8

/-- A `u16`: a register pair, SP, PC, an address or a composite opcode key (R7, R110). -/
abbrev Word := BitVec 16

end Sys2Proof
end

