-- ==== Sys2Proof/Machine/Bytes.lean ====
section
/-! DEFINITION. Byte order and extension (spec/00_scope.md R10, R11; spec/20_memory.md R89). -/

namespace Sys2Proof

/-- Bits 7..0 of a word (R10). -/
def loByte (w : Word) : Byte := w.setWidth 8

/-- Bits 15..8 of a word (R10). -/
def hiByte (w : Word) : Byte := (w >>> 8).setWidth 8

/-- `hi ++ lo`: the word whose bits 15..8 are `hi` and bits 7..0 `lo` (R10). -/
def wordOf (hi lo : Byte) : Word := hi ++ lo

/-- `zext_16` (R11). -/
def zext16 (v : Byte) : Word := v.setWidth 16

/-- `sext_8`: the byte read as two's complement, an exact integer (R11). -/
def sext8 (v : Byte) : Int := v.toInt

/-- The byte that holds a displacement: the inverse of `sext8` on [-128, 127]. -/
def displacementByte (r8 : Int) : Byte := BitVec.ofInt 8 r8

end Sys2Proof
end

