-- ==== Sys2Proof/Syntax.lean ====
section
/-! DEFINITION. The instruction set: the register names of spec/10_state.md R31 and one constructor of `Instr` for each row
of spec/opcode_table.json (spec/30_encoding.md R117). Immediates are the assembled operands of R113: `d8`, `a8` bytes,
`d16`, `a16` words, `r8` the signed displacement as an exact integer. -/

namespace Sys2Proof

/-- The 8-bit register names (R31). -/
inductive Reg8 where
  | f | a | c | b | e | d | l | h
deriving DecidableEq, Repr

/-- The 16-bit register names (R31). -/
inductive Reg16 where
  | af | bc | de | hl | sp | pc
deriving DecidableEq, Repr

/-- The 70 instructions of R117. `ldXFromY` is LD r,r' with r = X and r' = Y (R173). -/
inductive Instr where
  /-- NOP (R230). -/
  | nop
  /-- LD BC,d16 (R170). -/
  | ldBcD16 (d16 : Word)
  /-- LD DE,d16 (R170). -/
  | ldDeD16 (d16 : Word)
  /-- LD HL,d16 (R170). -/
  | ldHlD16 (d16 : Word)
  /-- LD SP,d16 (R170). -/
  | ldSpD16 (d16 : Word)
  /-- JR r8, r8 the signed displacement (R200). -/
  | jrR8 (r8 : Int)
  /-- JR NZ,r8 (R201). -/
  | jrNzR8 (r8 : Int)
  /-- JR Z,r8 (R201). -/
  | jrZR8 (r8 : Int)
  /-- LD (HL),d8 (R171). -/
  | ldIndHlD8 (d8 : Byte)
  /-- LD A,d8 (R172), gated by `P_GK_FORMS`. -/
  | ldAD8 (d8 : Byte)
  /-- XOR A,A (R190), gated by `P_GK_FORMS`. -/
  | xorAA
  /-- JP a16 (R202). -/
  | jpA16 (a16 : Word)
  /-- RET (R204). -/
  | ret
  /-- CALL a16 (R203). -/
  | callA16 (a16 : Word)
  /-- LDH (a8),A (R175). -/
  | ldhIndA8A (a8 : Byte)
  /-- AND d8 (R191). -/
  | andD8 (d8 : Byte)
  /-- LD (a16),A (R174). -/
  | ldIndA16A (a16 : Word)
  /-- LDH A,(a8) (R176). -/
  | ldhAIndA8 (a8 : Byte)
  /-- DI (R231). -/
  | di
  /-- CP d8 (R192). -/
  | cpD8 (d8 : Byte)
  /-- RES 0,A, the one 0xCB-prefixed instruction (R220). -/
  | res0A
  | ldBFromB | ldBFromC | ldBFromD | ldBFromE | ldBFromH | ldBFromL | ldBFromA
  | ldCFromB | ldCFromC | ldCFromD | ldCFromE | ldCFromH | ldCFromL | ldCFromA
  | ldDFromB | ldDFromC | ldDFromD | ldDFromE | ldDFromH | ldDFromL | ldDFromA
  | ldEFromB | ldEFromC | ldEFromD | ldEFromE | ldEFromH | ldEFromL | ldEFromA
  | ldHFromB | ldHFromC | ldHFromD | ldHFromE | ldHFromH | ldHFromL | ldHFromA
  | ldLFromB | ldLFromC | ldLFromD | ldLFromE | ldLFromH | ldLFromL | ldLFromA
  | ldAFromB | ldAFromC | ldAFromD | ldAFromE | ldAFromH | ldAFromL | ldAFromA
deriving DecidableEq, Repr

/-- The registers r and r' of an LD r,r' (spec/41_loads.md R173), r first; `none` for every other instruction. -/
def Instr.ldRegisters : Instr → Option (Reg8 × Reg8)
  | .ldBFromB => some (.b, .b) | .ldBFromC => some (.b, .c) | .ldBFromD => some (.b, .d) | .ldBFromE => some (.b, .e)
  | .ldBFromH => some (.b, .h) | .ldBFromL => some (.b, .l) | .ldBFromA => some (.b, .a)
  | .ldCFromB => some (.c, .b) | .ldCFromC => some (.c, .c) | .ldCFromD => some (.c, .d) | .ldCFromE => some (.c, .e)
  | .ldCFromH => some (.c, .h) | .ldCFromL => some (.c, .l) | .ldCFromA => some (.c, .a)
  | .ldDFromB => some (.d, .b) | .ldDFromC => some (.d, .c) | .ldDFromD => some (.d, .d) | .ldDFromE => some (.d, .e)
  | .ldDFromH => some (.d, .h) | .ldDFromL => some (.d, .l) | .ldDFromA => some (.d, .a)
  | .ldEFromB => some (.e, .b) | .ldEFromC => some (.e, .c) | .ldEFromD => some (.e, .d) | .ldEFromE => some (.e, .e)
  | .ldEFromH => some (.e, .h) | .ldEFromL => some (.e, .l) | .ldEFromA => some (.e, .a)
  | .ldHFromB => some (.h, .b) | .ldHFromC => some (.h, .c) | .ldHFromD => some (.h, .d) | .ldHFromE => some (.h, .e)
  | .ldHFromH => some (.h, .h) | .ldHFromL => some (.h, .l) | .ldHFromA => some (.h, .a)
  | .ldLFromB => some (.l, .b) | .ldLFromC => some (.l, .c) | .ldLFromD => some (.l, .d) | .ldLFromE => some (.l, .e)
  | .ldLFromH => some (.l, .h) | .ldLFromL => some (.l, .l) | .ldLFromA => some (.l, .a)
  | .ldAFromB => some (.a, .b) | .ldAFromC => some (.a, .c) | .ldAFromD => some (.a, .d) | .ldAFromE => some (.a, .e)
  | .ldAFromH => some (.a, .h) | .ldAFromL => some (.a, .l) | .ldAFromA => some (.a, .a)
  | .nop | .ldBcD16 _ | .ldDeD16 _ | .ldHlD16 _ | .ldSpD16 _ | .ldIndHlD8 _ | .ldAD8 _ | .xorAA => none
  | .jrR8 _ | .jrNzR8 _ | .jrZR8 _ | .jpA16 _ | .callA16 _ | .ret => none
  | .ldhIndA8A _ | .ldhAIndA8 _ | .ldIndA16A _ | .andD8 _ | .cpD8 _ | .di | .res0A => none

end Sys2Proof
end

