-- ==== Sys2Proof/Machine/State.lean ====
section
/-! DEFINITION. The state of the core (spec/10_state.md R30), its fault values (spec/60_exceptions.md R240) and the state
after reset (spec/70_reset_and_hazards.md R272). -/

namespace Sys2Proof.Machine

/-- The five mapped regions (spec/20_memory.md R71). -/
inductive Region where
  | rom | workingRam | ioPorts | highRam | interruptEnable
deriving DecidableEq, Repr

/-- The fourteen register views (R31): an 8-bit name or a 16-bit name. -/
inductive RegView where
  | byte (r : Reg8)
  | word (r : Reg16)
deriving DecidableEq, Repr

/-- The width of an access, in the payload of `accessViolation` (R240). -/
inductive Width where
  | one | two
deriving DecidableEq, Repr

/-- The direction of an access, in the payload of `accessViolation` (R240). -/
inductive Direction where
  | read | write
deriving DecidableEq, Repr

/-- What an access was made to: a byte address in a region, or a register view (R240; R80 gives the address). -/
inductive AccessTarget where
  | region (r : Region) (addr : Int)
  | register (v : RegView)
deriving DecidableEq, Repr

/-- The fault values of R240. A step that raises one enters `Mode.faulted` with it; `step` of a state in that mode
answers it as the outcome `fault` (R147, R148; log 5). -/
inductive Fault where
  /-- A view access whose mode forbids it (R241). Raised by the view accesses of Memory.lean and Registers.lean; no
  instruction raises it. Safe: the machine stops. -/
  | accessViolation (target : AccessTarget) (width : Width) (direction : Direction)
  /-- Decode or range failure; `addr` is the address presented to the decoder, or the first byte of a 16-bit access
  (R242). Raised by fetch, operand reads, data and stack accesses. Safe: the spec's fault. -/
  | memoryFault (addr : Int)
  /-- No row of the table has the key (R243). Raised by fetch. Safe: the spec's fault. -/
  | unknownOpcode (address : Word) (key : Word)
  /-- The computed next PC is outside [0, 0xFFFF] (R244). Raised by `advance`. Safe: the spec's fault. -/
  | pcOutOfRange (next : Int)
  /-- The ROM image is longer than 0x8000 bytes (R245). Raised by `construct` only. Safe: no state exists. -/
  | romTooLarge (length : Nat)
deriving DecidableEq, Repr

/-- Why a step has no meaning. -/
inductive Refusal where
  /-- An instruction with no meaning in the model. No arm of `exec` answers it. Safe. -/
  | notModelled (mnemonic : String)
deriving DecidableEq, Repr

/-- The engine state of R47: Running, or Faulted with the recorded fault. -/
inductive Mode where
  | running
  | faulted (f : Fault)
deriving DecidableEq, Repr

/-- The contents of the one address space (spec/20_memory.md R70): (address, byte) pairs in the canonical form
`Memory.wf` of Memory.lean. It holds the five backing stores ROM, WRAM, IO, HRAM and IEreg of R30 side by side, each at
its region's addresses (R73: no two share bytes; log 18). -/
abbrev Memory := List Host.Cell

/-- The state of the core, exactly the components of R30. -/
structure State where
  /-- The register file `RF` (R31). -/
  rf : Vector Byte 12
  /-- `ROM`, `WRAM`, `IO`, `HRAM` and `IEreg`. -/
  mem : Memory
  /-- The Interrupt Master Enable store (R44). -/
  ime : Byte
  /-- The engine state (R47). -/
  mode : Mode
deriving DecidableEq, Repr

/-- The state after construction with an empty ROM image: the register bytes of R50, Running (R53), all memory as an
unlisted address reads (R54; `P_MEM_INIT` at its reference value, DESIGN CHOICE, log 3, unsafe), IME at the reference
value of `P_IME_INIT` (DESIGN CHOICE, log 4, unsafe). -/
def State.reset : State where
  rf := #v[0xB0, 0x01, 0x13, 0x00, 0xD8, 0x00, 0x4D, 0x01, 0xFE, 0xFF, 0x00, 0x01]
  mem := []
  ime := 0x00
  mode := .running

end Sys2Proof.Machine
end

