-- ==== Sys2Proof/Machine/Memory.lean ====
section
/-! DEFINITION. Memory as a canonical list, the region views, the address decoder and the memory primitives
(spec/20_memory.md R70 to R84). -/

namespace Sys2Proof.Machine

/-! ## The byte list -/

/-- What an unlisted address reads as. ROM: the zero padding of R54. The other regions: `P_MEM_INIT` at its reference
value (R55; DESIGN CHOICE, log 3, unsafe). -/
def Memory.unlisted (_addr : Nat) : Byte := 0x00

/-- The byte stored at an address. -/
def Memory.read : Memory → Nat → Byte
  | [], a => unlisted a
  | (b, v) :: rest, a => if a = b then v else Memory.read rest a

/-- Put a cell before the first cell with a higher address. -/
def Memory.insert (a : Nat) (v : Byte) : Memory → Memory
  | [] => [(a, v)]
  | (b, w) :: rest => if a < b then (a, v) :: (b, w) :: rest else (b, w) :: Memory.insert a v rest

/-- Remove the cells of an address. -/
def Memory.erase (a : Nat) : Memory → Memory
  | [] => []
  | (b, w) :: rest => if a = b then Memory.erase a rest else (b, w) :: Memory.erase a rest

/-- Store a byte, keeping the canonical form. -/
def Memory.write (m : Memory) (a : Nat) (v : Byte) : Memory :=
  if v = unlisted a then Memory.erase a m else Memory.insert a v (Memory.erase a m)

/-! ## Region views and the address decoder -/

/-- An access mode of a view (spec/00_scope.md glossary; R77). -/
inductive AccessMode where
  | noAccess | readOnly | readWrite
deriving DecidableEq, Repr

/-- A region view (R77): its range in the address space and its access mode for each width. -/
structure View where
  base : Nat
  size : Nat
  mode8 : AccessMode
  mode16 : AccessMode
deriving DecidableEq, Repr

/-- The region table of R71. -/
def Region.view : Region → View
  | .rom => ⟨0x0000, 0x8000, .readWrite, .readWrite⟩
  | .workingRam => ⟨0xC000, 0x2000, .readWrite, .readWrite⟩
  | .ioPorts => ⟨0xFF00, 76, .readWrite, .readWrite⟩
  | .highRam => ⟨0xFF80, 127, .readWrite, .readWrite⟩
  | .interruptEnable => ⟨0xFFFF, 1, .readWrite, .readWrite⟩

/-- The five regions. -/
def Region.all : List Region := [.rom, .workingRam, .ioPorts, .highRam, .interruptEnable]

/-- The region's range holds the `n` bytes at `addr`. -/
def Region.holds (r : Region) (addr : Int) (n : Nat) : Bool :=
  decide ((r.view.base : Int) ≤ addr) && decide (addr + n ≤ (r.view.base + r.view.size : Int))

/-- `decode(addr)` of R78: the region that holds the address and the offset in it. Any other address, those outside
[0, 0xFFFF] included, is a memory fault. -/
def decodeAddr (addr : Int) : Except Fault (Region × Nat) :=
  match Region.all.find? fun r => r.holds addr 1 with
  | some r => .ok (r, (addr - r.view.base).toNat)
  | none => .error (.memoryFault addr)

/-- Some region holds all of the `n` bytes at `addr` (R79). -/
def accessible (n : Nat) (addr : Int) : Bool := Region.all.any fun r => r.holds addr n

/-- The canonical form: addresses strictly rising, no cell equal to what its address reads as when unlisted, and no cell
at an address outside the five regions. -/
abbrev Memory.wf (m : Memory) : Prop :=
  m.Pairwise (fun c d => c.1 < d.1) ∧ ∀ c ∈ m, c.2 ≠ Memory.unlisted c.1 ∧ accessible 1 (c.1 : Int) = true

/-! ## The memory primitives -/

/-- `store[off]`: the byte of a region's backing store (R80). -/
def Memory.load (m : Memory) (r : Region) (off : Nat) : Byte := m.read (r.view.base + off)

/-- `store[off] <- v` (R82). -/
def Memory.store (m : Memory) (r : Region) (off : Nat) (v : Byte) : Memory := m.write (r.view.base + off) v

/-- `MemRead(addr, 1)` (R80). -/
def memRead8 (m : Memory) (addr : Int) : Except Fault Byte :=
  match decodeAddr addr with
  | .error f => .error f
  | .ok (r, off) =>
    if r.view.mode8 = .noAccess then .error (.accessViolation (.region r addr) .one .read)
    else .ok (m.load r off)

/-- `MemRead(addr, 2)` (R81): the lower address holds bits 7..0. -/
def memRead16 (m : Memory) (addr : Int) : Except Fault Word :=
  match decodeAddr addr with
  | .error f => .error f
  | .ok (r, off) =>
    if r.view.mode16 = .noAccess then .error (.accessViolation (.region r addr) .two .read)
    else if off + 1 ≥ r.view.size then .error (.memoryFault addr)
    else .ok (wordOf (m.load r (off + 1)) (m.load r off))

/-- `MemWrite(addr, 1, v)` (R82). -/
def memWrite8 (m : Memory) (addr : Int) (v : Byte) : Except Fault Memory :=
  match decodeAddr addr with
  | .error f => .error f
  | .ok (r, off) =>
    if r.view.mode8 ≠ .readWrite then .error (.accessViolation (.region r addr) .one .write)
    else .ok (m.store r off v)

/-- `MemWrite(addr, 2, v)` (R83): both bytes are checked before either is written. -/
def memWrite16 (m : Memory) (addr : Int) (v : Word) : Except Fault Memory :=
  match decodeAddr addr with
  | .error f => .error f
  | .ok (r, off) =>
    if r.view.mode16 ≠ .readWrite then .error (.accessViolation (.region r addr) .two .write)
    else if off + 1 ≥ r.view.size then .error (.memoryFault addr)
    else .ok ((m.store r off (loByte v)).store r (off + 1) (hiByte v))

end Sys2Proof.Machine
end

