-- ==== Sys2Proof/Machine/Construct.lean ====
section
/-! DEFINITION. Construction, the core's only reset (spec/70_reset_and_hazards.md R270 to R274). -/

namespace Sys2Proof.Machine

/-- `P_MEM_INIT` (spec/00_scope.md R8): the bytes of the writable regions at construction. -/
structure MemInit where
  workingRam : Vector Byte 8192
  ioPorts : Vector Byte 76
  highRam : Vector Byte 127
  interruptEnable : Byte

/-- The spec's reference value of `P_MEM_INIT`: all 0x00 (R8). -/
def MemInit.reference : MemInit := ⟨Vector.replicate 8192 0, Vector.replicate 76 0, Vector.replicate 127 0, 0⟩

/-- Write consecutive bytes from an address upward. -/
def Memory.writeBytes (m : Memory) (addr : Nat) : List Byte → Memory
  | [] => m
  | b :: rest => Memory.writeBytes (m.write addr b) (addr + 1) rest

/-- The memory after construction: the ROM image from 0x0000 (its padding is what an unlisted address reads as, R54) and
`P_MEM_INIT` in the other regions (R55). -/
def initialMemory (image : List Byte) (init : MemInit) : Memory :=
  let m0 := Memory.writeBytes [] Region.rom.view.base image
  let m1 := m0.writeBytes Region.workingRam.view.base init.workingRam.toList
  let m2 := m1.writeBytes Region.ioPorts.view.base init.ioPorts.toList
  let m3 := m2.writeBytes Region.highRam.view.base init.highRam.toList
  m3.write Region.interruptEnable.view.base init.interruptEnable

/-- `CPU::new(rom_bytes)` (R271, R272) with `P_MEM_INIT` and `P_IME_INIT` as arguments: an image longer than 0x8000 bytes
is refused with RomTooLarge. -/
def construct (image : List Byte) (init : MemInit) (ime : Byte) : Except Fault State :=
  if image.length > 0x8000 then .error (.romTooLarge image.length)
  else .ok { State.reset with mem := initialMemory image init, ime := ime }

end Sys2Proof.Machine
end

