-- ==== Sys2Proof/Config.lean ====
section
/-! DEFINITION. What the implementation fixes and the spec leaves to a named parameter (spec/00_scope.md R8):
`P_CP_NHC` and `P_GK_FORMS`. The parameters of construction (`P_ROM_IMAGE`, `P_MEM_INIT`, `P_IME_INIT`) are arguments of
`Sys2Proof.Machine.construct`. -/

namespace Sys2Proof

/-- `P_CP_NHC` (R8, R192): the values of Subtraction, HalfCarry and Carry after `CP d8`, a function of A, d8 and the old N,
H, C, in that order. A FREE VALUE: it has no body, so no proof can see what it answers (DESIGN CHOICE, log 2, safe). -/
opaque Config.cpNhc : (a d8 : Byte) → (n h c : Bool) → Bool × Bool × Bool

/-- `P_GK_FORMS` (R8, R122): whether LD A,d8, LD r,r' and XOR A,A are admitted at their general-knowledge encodings. The
spec's reference value true (DESIGN CHOICE, log 1, unsafe); the decoder and `stepWith` take either value. -/
def Config.gkForms : Bool := true

end Sys2Proof
end

