-- ==== Sys2Proof/WellFormed.lean ====
section
/-! DEFINITION. When an `Instr` term is an instruction of the table: its displacement is in the range the encoding has
(spec/30_encoding.md R113), and its form is admitted under the given `P_GK_FORMS` (R117, R122). Every other operand type
holds exactly the values its encoding admits. -/

namespace Sys2Proof

/-- The 51 forms whose opcodes the source does not give (marked † in R117): LD A,d8, XOR A,A and LD r,r'. -/
def Instr.isGkForm : Instr → Bool
  | .ldAD8 _ | .xorAA => true
  | .ldBFromB | .ldBFromC | .ldBFromD | .ldBFromE | .ldBFromH | .ldBFromL | .ldBFromA => true
  | .ldCFromB | .ldCFromC | .ldCFromD | .ldCFromE | .ldCFromH | .ldCFromL | .ldCFromA => true
  | .ldDFromB | .ldDFromC | .ldDFromD | .ldDFromE | .ldDFromH | .ldDFromL | .ldDFromA => true
  | .ldEFromB | .ldEFromC | .ldEFromD | .ldEFromE | .ldEFromH | .ldEFromL | .ldEFromA => true
  | .ldHFromB | .ldHFromC | .ldHFromD | .ldHFromE | .ldHFromH | .ldHFromL | .ldHFromA => true
  | .ldLFromB | .ldLFromC | .ldLFromD | .ldLFromE | .ldLFromH | .ldLFromL | .ldLFromA => true
  | .ldAFromB | .ldAFromC | .ldAFromD | .ldAFromE | .ldAFromH | .ldAFromL | .ldAFromA => true
  | .nop | .ldBcD16 _ | .ldDeD16 _ | .ldHlD16 _ | .ldSpD16 _ | .ldIndHlD8 _ => false
  | .jrR8 _ | .jrNzR8 _ | .jrZR8 _ | .jpA16 _ | .callA16 _ | .ret => false
  | .ldhIndA8A _ | .ldhAIndA8 _ | .ldIndA16A _ | .andD8 _ | .cpD8 _ | .di | .res0A => false

/-- A displacement an `r8` byte can hold: [-128, 127] (R113). -/
def displacementInRange (r8 : Int) : Bool := decide (-128 ≤ r8) && decide (r8 ≤ 127)

/-- The operands are in range. Only the three JR forms have an operand type wider than its field. -/
def Instr.operandsInRange : Instr → Bool
  | .jrR8 r8 | .jrNzR8 r8 | .jrZR8 r8 => displacementInRange r8
  | .nop | .ldBcD16 _ | .ldDeD16 _ | .ldHlD16 _ | .ldSpD16 _ | .ldIndHlD8 _ | .ldAD8 _ | .xorAA => true
  | .jpA16 _ | .callA16 _ | .ret => true
  | .ldhIndA8A _ | .ldhAIndA8 _ | .ldIndA16A _ | .andD8 _ | .cpD8 _ | .di | .res0A => true
  | .ldBFromB | .ldBFromC | .ldBFromD | .ldBFromE | .ldBFromH | .ldBFromL | .ldBFromA => true
  | .ldCFromB | .ldCFromC | .ldCFromD | .ldCFromE | .ldCFromH | .ldCFromL | .ldCFromA => true
  | .ldDFromB | .ldDFromC | .ldDFromD | .ldDFromE | .ldDFromH | .ldDFromL | .ldDFromA => true
  | .ldEFromB | .ldEFromC | .ldEFromD | .ldEFromE | .ldEFromH | .ldEFromL | .ldEFromA => true
  | .ldHFromB | .ldHFromC | .ldHFromD | .ldHFromE | .ldHFromH | .ldHFromL | .ldHFromA => true
  | .ldLFromB | .ldLFromC | .ldLFromD | .ldLFromE | .ldLFromH | .ldLFromL | .ldLFromA => true
  | .ldAFromB | .ldAFromC | .ldAFromD | .ldAFromE | .ldAFromH | .ldAFromL | .ldAFromA => true

/-- `i` is an instruction of the table of R117 under `P_GK_FORMS = gk`. -/
def Instr.wellFormed (gk : Bool) (i : Instr) : Bool := i.operandsInRange && (gk || !i.isGkForm)

end Sys2Proof
end

