-- ==== Sys2Proof/Decode.lean ====
section
/-! DEFINITION. The instruction table, the decoder and the encoder (spec/30_encoding.md R110 to R123). The decoder reads
the table's rows; the encoder is written from the opcode fields of R114 to R116. -/

namespace Sys2Proof

/-- The operand shapes of a descriptor (R110). -/
inductive Shape where
  | none | imm8 | imm16 | register
deriving DecidableEq, Repr

/-- The bytes a shape adds to the instruction (R111). -/
def Shape.bytes : Shape → Nat
  | .none => 0
  | .imm8 => 1
  | .imm16 => 2
  | .register => 0

/-- An instruction descriptor (R110): the composite key (`0x100 | b1` for a 0xCB-prefixed instruction) and two shapes. -/
structure Descriptor where
  key : Word
  operand1 : Shape
  operand2 : Shape
deriving DecidableEq, Repr

/-- The number of opcode bytes of a key: 2 if it is 0xCB-prefixed, else 1 (R110, R142). -/
def keyBytes (key : Word) : Nat := if key < 0x100 then 1 else 2

/-- The total length of R111. -/
def Descriptor.length (d : Descriptor) : Nat := keyBytes d.key + d.operand1.bytes + d.operand2.bytes

/-- The immediate a row's instruction is built from (the formats op and cb, op_i8, op_i16 of R112). -/
inductive Template where
  | op (i : Instr)
  | opI8 (build : Byte → Instr)
  | opI16 (build : Word → Instr)

/-- A row of the table: the descriptor with the shapes of R123, whether `P_GK_FORMS` gates it, and what it decodes to. -/
structure Row where
  descriptor : Descriptor
  gk : Bool
  template : Template

/-- The rows of R117 but for LD r,r' and the extended key. -/
def mainRows : List Row := [
  ⟨⟨0x00, .none, .none⟩, false, (.op .nop)⟩,
  ⟨⟨0x01, .register, .imm16⟩, false, (.opI16 .ldBcD16)⟩,
  ⟨⟨0x11, .register, .imm16⟩, false, (.opI16 .ldDeD16)⟩,
  ⟨⟨0x21, .register, .imm16⟩, false, (.opI16 .ldHlD16)⟩,
  ⟨⟨0x31, .register, .imm16⟩, false, (.opI16 .ldSpD16)⟩,
  ⟨⟨0x18, .imm8, .none⟩, false, (.opI8 fun b => .jrR8 (sext8 b))⟩,
  ⟨⟨0x20, .imm8, .none⟩, false, (.opI8 fun b => .jrNzR8 (sext8 b))⟩,
  ⟨⟨0x28, .imm8, .none⟩, false, (.opI8 fun b => .jrZR8 (sext8 b))⟩,
  ⟨⟨0x36, .register, .imm8⟩, false, (.opI8 .ldIndHlD8)⟩,
  ⟨⟨0x3E, .register, .imm8⟩, true, (.opI8 .ldAD8)⟩,
  ⟨⟨0xAF, .register, .register⟩, true, (.op .xorAA)⟩,
  ⟨⟨0xC3, .imm16, .none⟩, false, (.opI16 .jpA16)⟩,
  ⟨⟨0xC9, .none, .none⟩, false, (.op .ret)⟩,
  ⟨⟨0xCD, .imm16, .none⟩, false, (.opI16 .callA16)⟩,
  ⟨⟨0xE0, .imm8, .register⟩, false, (.opI8 .ldhIndA8A)⟩,
  ⟨⟨0xE6, .imm8, .none⟩, false, (.opI8 .andD8)⟩,
  ⟨⟨0xEA, .imm16, .register⟩, false, (.opI16 .ldIndA16A)⟩,
  ⟨⟨0xF0, .register, .imm8⟩, false, (.opI8 .ldhAIndA8)⟩,
  ⟨⟨0xF3, .none, .none⟩, false, (.op .di)⟩,
  ⟨⟨0xFE, .imm8, .none⟩, false, (.opI8 .cpD8)⟩]

/-- The rows of LD B,r' (R115, R117). -/
def ldBRows : List Row := [
  ⟨⟨0x40, .register, .register⟩, true, (.op .ldBFromB)⟩,
  ⟨⟨0x41, .register, .register⟩, true, (.op .ldBFromC)⟩,
  ⟨⟨0x42, .register, .register⟩, true, (.op .ldBFromD)⟩,
  ⟨⟨0x43, .register, .register⟩, true, (.op .ldBFromE)⟩,
  ⟨⟨0x44, .register, .register⟩, true, (.op .ldBFromH)⟩,
  ⟨⟨0x45, .register, .register⟩, true, (.op .ldBFromL)⟩,
  ⟨⟨0x47, .register, .register⟩, true, (.op .ldBFromA)⟩]

/-- The rows of LD C,r' (R115, R117). -/
def ldCRows : List Row := [
  ⟨⟨0x48, .register, .register⟩, true, (.op .ldCFromB)⟩,
  ⟨⟨0x49, .register, .register⟩, true, (.op .ldCFromC)⟩,
  ⟨⟨0x4A, .register, .register⟩, true, (.op .ldCFromD)⟩,
  ⟨⟨0x4B, .register, .register⟩, true, (.op .ldCFromE)⟩,
  ⟨⟨0x4C, .register, .register⟩, true, (.op .ldCFromH)⟩,
  ⟨⟨0x4D, .register, .register⟩, true, (.op .ldCFromL)⟩,
  ⟨⟨0x4F, .register, .register⟩, true, (.op .ldCFromA)⟩]

/-- The rows of LD D,r' (R115, R117). -/
def ldDRows : List Row := [
  ⟨⟨0x50, .register, .register⟩, true, (.op .ldDFromB)⟩,
  ⟨⟨0x51, .register, .register⟩, true, (.op .ldDFromC)⟩,
  ⟨⟨0x52, .register, .register⟩, true, (.op .ldDFromD)⟩,
  ⟨⟨0x53, .register, .register⟩, true, (.op .ldDFromE)⟩,
  ⟨⟨0x54, .register, .register⟩, true, (.op .ldDFromH)⟩,
  ⟨⟨0x55, .register, .register⟩, true, (.op .ldDFromL)⟩,
  ⟨⟨0x57, .register, .register⟩, true, (.op .ldDFromA)⟩]

/-- The rows of LD E,r' (R115, R117). -/
def ldERows : List Row := [
  ⟨⟨0x58, .register, .register⟩, true, (.op .ldEFromB)⟩,
  ⟨⟨0x59, .register, .register⟩, true, (.op .ldEFromC)⟩,
  ⟨⟨0x5A, .register, .register⟩, true, (.op .ldEFromD)⟩,
  ⟨⟨0x5B, .register, .register⟩, true, (.op .ldEFromE)⟩,
  ⟨⟨0x5C, .register, .register⟩, true, (.op .ldEFromH)⟩,
  ⟨⟨0x5D, .register, .register⟩, true, (.op .ldEFromL)⟩,
  ⟨⟨0x5F, .register, .register⟩, true, (.op .ldEFromA)⟩]

/-- The rows of LD H,r' (R115, R117). -/
def ldHRows : List Row := [
  ⟨⟨0x60, .register, .register⟩, true, (.op .ldHFromB)⟩,
  ⟨⟨0x61, .register, .register⟩, true, (.op .ldHFromC)⟩,
  ⟨⟨0x62, .register, .register⟩, true, (.op .ldHFromD)⟩,
  ⟨⟨0x63, .register, .register⟩, true, (.op .ldHFromE)⟩,
  ⟨⟨0x64, .register, .register⟩, true, (.op .ldHFromH)⟩,
  ⟨⟨0x65, .register, .register⟩, true, (.op .ldHFromL)⟩,
  ⟨⟨0x67, .register, .register⟩, true, (.op .ldHFromA)⟩]

/-- The rows of LD L,r' (R115, R117). -/
def ldLRows : List Row := [
  ⟨⟨0x68, .register, .register⟩, true, (.op .ldLFromB)⟩,
  ⟨⟨0x69, .register, .register⟩, true, (.op .ldLFromC)⟩,
  ⟨⟨0x6A, .register, .register⟩, true, (.op .ldLFromD)⟩,
  ⟨⟨0x6B, .register, .register⟩, true, (.op .ldLFromE)⟩,
  ⟨⟨0x6C, .register, .register⟩, true, (.op .ldLFromH)⟩,
  ⟨⟨0x6D, .register, .register⟩, true, (.op .ldLFromL)⟩,
  ⟨⟨0x6F, .register, .register⟩, true, (.op .ldLFromA)⟩]

/-- The rows of LD A,r' (R115, R117). -/
def ldARows : List Row := [
  ⟨⟨0x78, .register, .register⟩, true, (.op .ldAFromB)⟩,
  ⟨⟨0x79, .register, .register⟩, true, (.op .ldAFromC)⟩,
  ⟨⟨0x7A, .register, .register⟩, true, (.op .ldAFromD)⟩,
  ⟨⟨0x7B, .register, .register⟩, true, (.op .ldAFromE)⟩,
  ⟨⟨0x7C, .register, .register⟩, true, (.op .ldAFromH)⟩,
  ⟨⟨0x7D, .register, .register⟩, true, (.op .ldAFromL)⟩,
  ⟨⟨0x7F, .register, .register⟩, true, (.op .ldAFromA)⟩]

/-- The rows of the 0xCB namespace (R117, R119). -/
def extendedRows : List Row := [
  ⟨⟨0x187, .register, .none⟩, false, (.op .res0A)⟩]

/-- The instruction table of R117. -/
def table : List Row :=
  mainRows ++ ldBRows ++ ldCRows ++ ldDRows ++ ldERows ++ ldHRows ++ ldLRows ++ ldARows ++ extendedRows

/-- The lookup of R124 and R143: the row of a key that is admitted under `P_GK_FORMS = gk` (R122). -/
def lookup (gk : Bool) (key : Word) : Option Row := table.find? fun r => r.descriptor.key == key && (gk || !r.gk)

/-- The 0xCB marker of R119. -/
def cbMarker : Byte := 0xCB

/-- The composite key of an unprefixed opcode byte (R110). -/
def primaryKey (b0 : Byte) : Word := zext16 b0

/-- The composite key of the byte after 0xCB (R110). -/
def extendedKey (b1 : Byte) : Word := 0x100 ||| zext16 b1

/-- Why bytes are no instruction: they end too early, or their key has no row (R121). -/
inductive DecodeError where
  | truncated
  | unknownOpcode (key : Word)
deriving DecidableEq, Repr

/-- Build the instruction from the bytes after the opcode, little-endian (R113), and give back the rest. -/
def Template.assemble : Template → List Byte → Except DecodeError (Instr × List Byte)
  | .op i, rest => .ok (i, rest)
  | .opI8 build, b :: rest => .ok (build b, rest)
  | .opI8 _, [] => .error .truncated
  | .opI16 build, lo :: hi :: rest => .ok (build (wordOf hi lo), rest)
  | .opI16 _, _ => .error .truncated

/-- Look the key up and assemble the operands. -/
def decodeKey (gk : Bool) (key : Word) (operands : List Byte) : Except DecodeError (Instr × List Byte) :=
  match lookup gk key with
  | none => .error (.unknownOpcode key)
  | some row => row.template.assemble operands

/-- The decoder: one instruction from the front of a list of bytes, and the bytes after it (R112, R119, R120). -/
def decode (gk : Bool) : List Byte → Except DecodeError (Instr × List Byte)
  | [] => .error .truncated
  | b0 :: rest =>
    if b0 = cbMarker then
      match rest with
      | [] => .error .truncated
      | b1 :: rest' => decodeKey gk (extendedKey b1) rest'
    else decodeKey gk (primaryKey b0) rest

/-- The registers LD r,r' names (R115): F has no code, 110 is none of them. -/
inductive LdReg where
  | b | c | d | e | h | l | a
deriving DecidableEq, Repr

/-- The 3-bit codes of R115. -/
def LdReg.code : LdReg → Byte
  | .b => 0b000
  | .c => 0b001
  | .d => 0b010
  | .e => 0b011
  | .h => 0b100
  | .l => 0b101
  | .a => 0b111

/-- `01dddsss` (R115). -/
def ldOpcode (dst src : LdReg) : Byte := 0b01000000 ||| (dst.code <<< 3) ||| src.code

/-- `00pp0001` (R114). -/
def ldPairOpcode (pp : Byte) : Byte := 0b00000001 ||| (pp <<< 4)

/-- `001cc000` (R116). -/
def jrConditionOpcode (cc : Byte) : Byte := 0b00100000 ||| (cc <<< 3)

/-- The opcode bytes of an instruction (R112, R114 to R117). -/
def Instr.opcodeBytes : Instr → List Byte
  | .nop => [0x00]
  | .ldBcD16 _ => [ldPairOpcode 0b00]
  | .ldDeD16 _ => [ldPairOpcode 0b01]
  | .ldHlD16 _ => [ldPairOpcode 0b10]
  | .ldSpD16 _ => [ldPairOpcode 0b11]
  | .jrR8 _ => [0x18]
  | .jrNzR8 _ => [jrConditionOpcode 0b00]
  | .jrZR8 _ => [jrConditionOpcode 0b01]
  | .ldIndHlD8 _ => [0x36]
  | .ldAD8 _ => [0x3E]
  | .xorAA => [0xAF]
  | .jpA16 _ => [0xC3]
  | .ret => [0xC9]
  | .callA16 _ => [0xCD]
  | .ldhIndA8A _ => [0xE0]
  | .andD8 _ => [0xE6]
  | .ldIndA16A _ => [0xEA]
  | .ldhAIndA8 _ => [0xF0]
  | .di => [0xF3]
  | .cpD8 _ => [0xFE]
  | .res0A => [cbMarker, 0x87]
  | .ldBFromB => [ldOpcode .b .b]
  | .ldBFromC => [ldOpcode .b .c]
  | .ldBFromD => [ldOpcode .b .d]
  | .ldBFromE => [ldOpcode .b .e]
  | .ldBFromH => [ldOpcode .b .h]
  | .ldBFromL => [ldOpcode .b .l]
  | .ldBFromA => [ldOpcode .b .a]
  | .ldCFromB => [ldOpcode .c .b]
  | .ldCFromC => [ldOpcode .c .c]
  | .ldCFromD => [ldOpcode .c .d]
  | .ldCFromE => [ldOpcode .c .e]
  | .ldCFromH => [ldOpcode .c .h]
  | .ldCFromL => [ldOpcode .c .l]
  | .ldCFromA => [ldOpcode .c .a]
  | .ldDFromB => [ldOpcode .d .b]
  | .ldDFromC => [ldOpcode .d .c]
  | .ldDFromD => [ldOpcode .d .d]
  | .ldDFromE => [ldOpcode .d .e]
  | .ldDFromH => [ldOpcode .d .h]
  | .ldDFromL => [ldOpcode .d .l]
  | .ldDFromA => [ldOpcode .d .a]
  | .ldEFromB => [ldOpcode .e .b]
  | .ldEFromC => [ldOpcode .e .c]
  | .ldEFromD => [ldOpcode .e .d]
  | .ldEFromE => [ldOpcode .e .e]
  | .ldEFromH => [ldOpcode .e .h]
  | .ldEFromL => [ldOpcode .e .l]
  | .ldEFromA => [ldOpcode .e .a]
  | .ldHFromB => [ldOpcode .h .b]
  | .ldHFromC => [ldOpcode .h .c]
  | .ldHFromD => [ldOpcode .h .d]
  | .ldHFromE => [ldOpcode .h .e]
  | .ldHFromH => [ldOpcode .h .h]
  | .ldHFromL => [ldOpcode .h .l]
  | .ldHFromA => [ldOpcode .h .a]
  | .ldLFromB => [ldOpcode .l .b]
  | .ldLFromC => [ldOpcode .l .c]
  | .ldLFromD => [ldOpcode .l .d]
  | .ldLFromE => [ldOpcode .l .e]
  | .ldLFromH => [ldOpcode .l .h]
  | .ldLFromL => [ldOpcode .l .l]
  | .ldLFromA => [ldOpcode .l .a]
  | .ldAFromB => [ldOpcode .a .b]
  | .ldAFromC => [ldOpcode .a .c]
  | .ldAFromD => [ldOpcode .a .d]
  | .ldAFromE => [ldOpcode .a .e]
  | .ldAFromH => [ldOpcode .a .h]
  | .ldAFromL => [ldOpcode .a .l]
  | .ldAFromA => [ldOpcode .a .a]

/-- The two bytes of a 16-bit immediate, low byte first (R112). -/
def immediate16 (w : Word) : List Byte := [loByte w, hiByte w]

/-- The operand bytes of an instruction (R112, R113). -/
def Instr.operandBytes : Instr → List Byte
  | .ldBcD16 d16 | .ldDeD16 d16 | .ldHlD16 d16 | .ldSpD16 d16 => immediate16 d16
  | .jpA16 a16 | .callA16 a16 | .ldIndA16A a16 => immediate16 a16
  | .jrR8 r8 | .jrNzR8 r8 | .jrZR8 r8 => [displacementByte r8]
  | .ldIndHlD8 d8 | .ldAD8 d8 | .andD8 d8 | .cpD8 d8 => [d8]
  | .ldhIndA8A a8 | .ldhAIndA8 a8 => [a8]
  | .nop | .xorAA | .ret | .di | .res0A => []
  | .ldBFromB | .ldBFromC | .ldBFromD | .ldBFromE | .ldBFromH | .ldBFromL | .ldBFromA => []
  | .ldCFromB | .ldCFromC | .ldCFromD | .ldCFromE | .ldCFromH | .ldCFromL | .ldCFromA => []
  | .ldDFromB | .ldDFromC | .ldDFromD | .ldDFromE | .ldDFromH | .ldDFromL | .ldDFromA => []
  | .ldEFromB | .ldEFromC | .ldEFromD | .ldEFromE | .ldEFromH | .ldEFromL | .ldEFromA => []
  | .ldHFromB | .ldHFromC | .ldHFromD | .ldHFromE | .ldHFromH | .ldHFromL | .ldHFromA => []
  | .ldLFromB | .ldLFromC | .ldLFromD | .ldLFromE | .ldLFromH | .ldLFromL | .ldLFromA => []
  | .ldAFromB | .ldAFromC | .ldAFromD | .ldAFromE | .ldAFromH | .ldAFromL | .ldAFromA => []

/-- The encoder: the bytes of an instruction, from the lowest address. -/
def encode (i : Instr) : List Byte := i.opcodeBytes ++ i.operandBytes

/-- The bytes of an instruction word numbered as spec/opcode_table.json numbers it, with zeros above `nbits`: the first
byte is bits 7..0, except that the table numbers its one 16-bit row, the 0xCB-prefixed one, with the prefix byte in bits
15..8 (DEDUCED from the row's note, log 17, safe). Three bytes, the longest instruction. -/
def tableBytes (nbits w : Nat) : List Byte :=
  let v := w % 2 ^ nbits
  if nbits = 16 ∧ v / 256 = 0xCB ∧ v % 256 ≠ 0xCB then [cbMarker, BitVec.ofNat 8 v, 0]
  else [BitVec.ofNat 8 v, BitVec.ofNat 8 (v / 256), BitVec.ofNat 8 (v / 65536)]

/-- The instruction the decoder reads from a word numbered as spec/opcode_table.json numbers it. -/
def decodeTableWord (nbits w : Nat) : Option Instr :=
  match decode Config.gkForms (tableBytes nbits w) with
  | .ok (i, _) => some i
  | .error _ => none

end Sys2Proof
end

