-- ==== Sys2Proof/Machine/Registers.lean ====
section
/-! DEFINITION. The register views over the 12-byte register file (spec/10_state.md R31 to R34). -/

namespace Sys2Proof.Machine

/-- The byte of `RF` an 8-bit view is (R31). -/
def reg8Offset : Reg8 → Fin 12
  | .f => 0
  | .a => 1
  | .c => 2
  | .b => 3
  | .e => 4
  | .d => 5
  | .l => 6
  | .h => 7

/-- The lower byte of `RF` of a 16-bit view: bits 7..0 (R31, R32). -/
def reg16LowOffset : Reg16 → Fin 12
  | .af => 0
  | .bc => 2
  | .de => 4
  | .hl => 6
  | .sp => 8
  | .pc => 10

/-- The higher byte of `RF` of a 16-bit view: bits 15..8 (R31, R32). -/
def reg16HighOffset : Reg16 → Fin 12
  | .af => 1
  | .bc => 3
  | .de => 5
  | .hl => 7
  | .sp => 9
  | .pc => 11

/-- `RF[i]`. -/
def State.rfByte (s : State) (i : Fin 12) : Byte := s.rf[i.val]

/-- `RF[i] <- v`. -/
def State.setRfByte (s : State) (i : Fin 12) (v : Byte) : State := { s with rf := s.rf.set i.val v }

/-- `x[r]` of an 8-bit name (spec/00_scope.md R12). -/
def State.reg8 (s : State) (r : Reg8) : Byte := s.rfByte (reg8Offset r)

/-- `x[r] <- v` of an 8-bit name. -/
def State.setReg8 (s : State) (r : Reg8) (v : Byte) : State := s.setRfByte (reg8Offset r) v

/-- `x[rr]` of a 16-bit name, little-endian over its two bytes (R32). -/
def State.reg16 (s : State) (r : Reg16) : Word := wordOf (s.rfByte (reg16HighOffset r)) (s.rfByte (reg16LowOffset r))

/-- `x[rr] <- v` of a 16-bit name (R32). -/
def State.setReg16 (s : State) (r : Reg16) (v : Word) : State :=
  (s.setRfByte (reg16LowOffset r) (loByte v)).setRfByte (reg16HighOffset r) (hiByte v)

/-- `pc`: the address of the instruction being executed (R42). -/
def State.pc (s : State) : Word := s.reg16 .pc

/-- The 8-bit access mode of a register view (R34). -/
def RegView.mode8 : RegView → AccessMode
  | .byte _ => .readWrite
  | .word _ => .noAccess

/-- The 16-bit access mode of a register view (R34). -/
def RegView.mode16 : RegView → AccessMode
  | .byte _ => .noAccess
  | .word _ => .readWrite

/-- An 8-bit read of a named view, checked against its mode (R34, R241). -/
def State.viewRead8 (s : State) (v : RegView) : Except Fault Byte :=
  if v.mode8 = .noAccess then .error (.accessViolation (.register v) .one .read)
  else match v with
    | .byte r => .ok (s.reg8 r)
    | .word r => .ok (loByte (s.reg16 r))

/-- A 16-bit read of a named view, checked against its mode (R34, R241). -/
def State.viewRead16 (s : State) (v : RegView) : Except Fault Word :=
  if v.mode16 = .noAccess then .error (.accessViolation (.register v) .two .read)
  else match v with
    | .byte r => .ok (zext16 (s.reg8 r))
    | .word r => .ok (s.reg16 r)

/-- An 8-bit write of a named view, checked against its mode (R34, R241). -/
def State.viewWrite8 (s : State) (v : RegView) (x : Byte) : Except Fault State :=
  if v.mode8 ≠ .readWrite then .error (.accessViolation (.register v) .one .write)
  else match v with
    | .byte r => .ok (s.setReg8 r x)
    | .word r => .ok (s.setReg16 r (zext16 x))

/-- A 16-bit write of a named view, checked against its mode (R34, R241). -/
def State.viewWrite16 (s : State) (v : RegView) (x : Word) : Except Fault State :=
  if v.mode16 ≠ .readWrite then .error (.accessViolation (.register v) .two .write)
  else match v with
    | .byte r => .ok (s.setReg8 r (loByte x))
    | .word r => .ok (s.setReg16 r x)

end Sys2Proof.Machine
end

