-- ==== Sys2Proof/Machine/Flags.lean ====
section
/-! DEFINITION. The four flags of F and the flag results of the arithmetic group (spec/10_state.md R36 to R40;
spec/42_arithmetic.md). -/

namespace Sys2Proof.Machine

/-- The named flags (R36). -/
inductive Flag where
  | zero | halfCarry | subtraction | carry
deriving DecidableEq, Repr

/-- The flag's bit of F: "from bit 4 upward" (R36). -/
def Flag.bit : Flag → Nat
  | .zero => 4
  | .halfCarry => 5
  | .subtraction => 6
  | .carry => 7

/-- `get_flag` on an F byte: bit set = true (R37, R38). -/
def getFlag (f : Byte) (flag : Flag) : Bool := f.getLsbD flag.bit

/-- `set_flag` on an F byte: clear the bit, then set it if `b` (R37). -/
def setFlag (f : Byte) (flag : Flag) (b : Bool) : Byte :=
  (f &&& ~~~(1#8 <<< flag.bit)) ||| (if b then 1#8 <<< flag.bit else 0#8)

/-- `F.Z`, `F.H`, `F.N`, `F.C` (spec/00_scope.md R13). -/
def State.flag (s : State) (flag : Flag) : Bool := getFlag (s.reg8 .f) flag

/-- `F.Z <- b` and the others (R13). -/
def State.setFlag (s : State) (flag : Flag) (b : Bool) : State :=
  s.setReg8 .f (Machine.setFlag (s.reg8 .f) flag b)

/-- F after `XOR A,A`: the whole byte zeroed, then Zero set (R190). -/
def flagsAfterXor : Byte := setFlag 0x00 .zero true

/-- F after `AND d8`, from the old F and the result: C, N cleared, H set, Z written both ways (R191). -/
def flagsAfterAnd (f res : Byte) : Byte :=
  setFlag (setFlag (setFlag (setFlag f .carry false) .subtraction false) .halfCarry true) .zero (res == 0x00)

/-- F after `CP d8`, from the old F, A, d8 and the values of N, H and C: Z written both ways, then N, H, C (R192). -/
def flagsAfterCp (f a d8 : Byte) (nhc : Bool × Bool × Bool) : Byte :=
  setFlag (setFlag (setFlag (setFlag f .zero (a == d8)) .subtraction nhc.1) .halfCarry nhc.2.1) .carry nhc.2.2

end Sys2Proof.Machine
end

