-- ==== Sys2Proof/Machine/Operands.lean ====
section
/-! DEFINITION. The operand forms that name an address, a condition or a jump distance (spec/30_encoding.md R113, R116;
spec/41_loads.md). Immediate data and registers need no form of their own: they are fields of `Instr` and `State.reg8`. -/

namespace Sys2Proof.Machine

/-- `(HL)`: the byte at the address HL holds (spec/41_loads.md R171). -/
def addrHl (s : State) : Int := ((s.reg16 .hl).toNat : Int)

/-- `(a16)`: the byte at an absolute address (R174). -/
def addrA16 (a16 : Word) : Int := (a16.toNat : Int)

/-- `(a8)`: the byte at `0xFF00 | zext_16(a8)` (R113, R175, R176). -/
def addrA8 (a8 : Byte) : Int := ((0xFF00#16 ||| zext16 a8).toNat : Int)

/-- The conditions of JR (R116). -/
inductive Condition where
  | nz | z
deriving DecidableEq, Repr

/-- NZ: Zero is clear. Z: Zero is set (spec/43_control.md R201). -/
def Condition.holds : Condition → State → Bool
  | .nz, s => !s.flag .zero
  | .z, s => s.flag .zero

/-- The PC offset of a relative jump of length 2 (spec/43_control.md R200, R201): the displacement counts from the next
instruction when the jump is taken. -/
def jumpOffset (taken : Bool) (r8 : Int) : Int := if taken then 2 + r8 else 2

end Sys2Proof.Machine
end

