-- ==== Sys2Proof/Machine/Ops.lean ====
section
/-! DEFINITION. The shared operations of the meanings: taking a fault, committing a step, the next PC, data accesses and
the stack (spec/40_step_engine.md R144 to R147; spec/20_memory.md R85 to R88; spec/60_exceptions.md R240, R249). -/

namespace Sys2Proof.Machine

/-- The outcome of a step or a meaning. -/
abbrev Result := Host.Outcome State Fault Refusal

/-- The numeric codes of R240. -/
def Fault.code : Fault → Nat
  | .accessViolation _ _ _ => 1
  | .memoryFault _ => 2
  | .unknownOpcode _ _ => 3
  | .pcOutOfRange _ => 4
  | .romTooLarge _ => 5

/-- The fault recorded in a mode (R47). -/
def Mode.recorded : Mode → Option Fault
  | .running => none
  | .faulted f => some f

/-- `mode <- Faulted(f)`. -/
def State.enterFaulted (s : State) (f : Fault) : State := { s with mode := .faulted f }

/-- Taking a fault (R147, R248, R249): the pre-step state with `mode <- Faulted(f)`; nothing is saved and there is no
vector. There is no return from it (R250). The host reads the fault in `mode` (log 5). -/
def takeFault (s : State) (f : Fault) : Result := .next (s.enterFaulted f)

/-- Go on with a value, or take the fault met in computing it. `s` is the pre-step state. -/
def orFault {α : Type} (s : State) (go : α → Result) : Except Fault α → Result
  | .ok a => go a
  | .error f => takeFault s f

/-- Commit (R146): all the writes of the step, or none of them and the fault. `s` is the pre-step state. -/
def commit (s : State) (effect : Except Fault State) : Result := orFault s .next effect

/-- `next <- pc + k` with its range check (spec/00_scope.md R16; R145): the sum is exact. -/
def State.advance (s : State) (k : Int) : Except Fault State :=
  let next := (s.pc.toNat : Int) + k
  if 0 ≤ next ∧ next ≤ 0xFFFF then .ok (s.setReg16 .pc (BitVec.ofInt 16 next)) else .error (.pcOutOfRange next)

/-- `pc <- target`: an explicit overwrite, with no range check (R16, R145). -/
def State.jump (s : State) (target : Word) : State := s.setReg16 .pc target

/-- `MemWrite(addr, 1, v)` on the state. -/
def State.store8 (s : State) (addr : Int) (v : Byte) : Except Fault State :=
  (memWrite8 s.mem addr v).map fun m => { s with mem := m }

/-- `sp' = (x[SP] - 2) mod 2^16`: where a push writes (R85, R86). -/
def State.pushAddress (s : State) : Word := s.reg16 .sp - 2

/-- `push(v)` (R85). -/
def State.push (s : State) (v : Word) : Except Fault State :=
  (memWrite16 s.mem (s.pushAddress.toNat : Int) v).map fun m => { s with mem := m }.setReg16 .sp s.pushAddress

/-- `pop()` (R87): the value at SP, and the state with SP moved up by 2 modulo 2^16. -/
def State.pop (s : State) : Except Fault (Word × State) :=
  (memRead16 s.mem ((s.reg16 .sp).toNat : Int)).map fun v => (v, s.setReg16 .sp (s.reg16 .sp + 2))

end Sys2Proof.Machine
end

