-- ==== Sys2Proof/Machine/Arithmetic.lean ====
section
/-! DEFINITION. The arithmetic group (spec/42_arithmetic.md R190 to R192), the only instructions that write F
(spec/10_state.md R40). -/

namespace Sys2Proof.Machine

/-- XOR A,A (R190). -/
def execXorAA (s : State) : Result :=
  commit s (((s.setReg8 .a (s.reg8 .a ^^^ s.reg8 .a)).setReg8 .f flagsAfterXor).advance 1)

/-- AND d8 (R191). -/
def execAndD8 (d8 : Byte) (s : State) : Result :=
  let res := s.reg8 .a &&& d8
  commit s (((s.setReg8 .a res).setReg8 .f (flagsAfterAnd (s.reg8 .f) res)).advance 2)

/-- The values of N, H and C that CP writes: `P_CP_NHC` of A, d8 and the old flags (R192; log 2). -/
def cpNhc (s : State) (d8 : Byte) : Bool × Bool × Bool :=
  Config.cpNhc (s.reg8 .a) d8 (s.flag .subtraction) (s.flag .halfCarry) (s.flag .carry)

/-- CP d8 (R192). A is not written. -/
def execCpD8 (d8 : Byte) (s : State) : Result :=
  commit s ((s.setReg8 .f (flagsAfterCp (s.reg8 .f) (s.reg8 .a) d8 (cpNhc s d8))).advance 2)

end Sys2Proof.Machine
end

