-- ==== Sys2Proof/Machine/Bit.lean ====
section
/-! DEFINITION. The bit group: the one 0xCB-prefixed instruction (spec/44_bit.md R220). -/

namespace Sys2Proof.Machine

/-- RES 0,A (R220). F is not written. -/
def execRes0A (s : State) : Result := commit s ((s.setReg8 .a (s.reg8 .a &&& 0xFE)).advance 2)

end Sys2Proof.Machine
end

