-- ==== Sys2Proof/Machine/Control.lean ====
section
/-! DEFINITION. The control group (spec/43_control.md R200 to R204). No control transfer writes F. -/

namespace Sys2Proof.Machine

/-- A relative jump (R200, R201). -/
def relativeJump (taken : Bool) (r8 : Int) (s : State) : Result := commit s (s.advance (jumpOffset taken r8))

/-- JR r8 (R200). -/
def execJrR8 (r8 : Int) (s : State) : Result := relativeJump true r8 s

/-- JR NZ,r8 (R201). -/
def execJrNzR8 (r8 : Int) (s : State) : Result := relativeJump (Condition.nz.holds s) r8 s

/-- JR Z,r8 (R201). -/
def execJrZR8 (r8 : Int) (s : State) : Result := relativeJump (Condition.z.holds s) r8 s

/-- JP a16 (R202). -/
def execJpA16 (a16 : Word) (s : State) : Result := commit s (.ok (s.jump a16))

/-- CALL a16 (R203): push pc + 3, then jump. The sum fits 16 bits whenever the operand was read (log 19). -/
def execCallA16 (a16 : Word) (s : State) : Result := commit s ((s.push (s.pc + 3)).map fun t => t.jump a16)

/-- RET (R204). -/
def execRet (s : State) : Result := commit s (s.pop.map fun (target, t) => t.jump target)

end Sys2Proof.Machine
end

