-- ==== Sys2Proof/Machine/Loads.lean ====
section
/-! DEFINITION. The load group (spec/41_loads.md R170 to R176). No load or store changes F. -/

namespace Sys2Proof.Machine

/-- LD r16,d16 (R170). -/
def loadPair (r : Reg16) (d16 : Word) (s : State) : Result := commit s ((s.setReg16 r d16).advance 3)

/-- LD r,r' (R173). -/
def loadRegister (dst src : Reg8) (s : State) : Result := commit s ((s.setReg8 dst (s.reg8 src)).advance 1)

/-- A store of one byte, then a fixed advance (R171, R174, R175). -/
def storeByte (addr : Int) (v : Byte) (length : Int) (s : State) : Result :=
  commit s ((s.store8 addr v).bind fun t => t.advance length)

/-- LD BC,d16 (R170). -/
def execLdBcD16 (d16 : Word) (s : State) : Result := loadPair .bc d16 s

/-- LD DE,d16 (R170). -/
def execLdDeD16 (d16 : Word) (s : State) : Result := loadPair .de d16 s

/-- LD HL,d16 (R170). -/
def execLdHlD16 (d16 : Word) (s : State) : Result := loadPair .hl d16 s

/-- LD SP,d16 (R170). -/
def execLdSpD16 (d16 : Word) (s : State) : Result := loadPair .sp d16 s

/-- LD (HL),d8 (R171). -/
def execLdIndHlD8 (d8 : Byte) (s : State) : Result := storeByte (addrHl s) d8 2 s

/-- LD A,d8 (R172). -/
def execLdAD8 (d8 : Byte) (s : State) : Result := commit s ((s.setReg8 .a d8).advance 2)

/-- LD (a16),A (R174). -/
def execLdIndA16A (a16 : Word) (s : State) : Result := storeByte (addrA16 a16) (s.reg8 .a) 3 s

/-- LDH (a8),A (R175). -/
def execLdhIndA8A (a8 : Byte) (s : State) : Result := storeByte (addrA8 a8) (s.reg8 .a) 2 s

/-- LDH A,(a8) (R176). -/
def execLdhAIndA8 (a8 : Byte) (s : State) : Result :=
  commit s ((memRead8 s.mem (addrA8 a8)).bind fun v => (s.setReg8 .a v).advance 2)

/-! ## LD r,r' (R173): one definition for each key. -/

def execLdBFromB (s : State) : Result := loadRegister .b .b s
def execLdBFromC (s : State) : Result := loadRegister .b .c s
def execLdBFromD (s : State) : Result := loadRegister .b .d s
def execLdBFromE (s : State) : Result := loadRegister .b .e s
def execLdBFromH (s : State) : Result := loadRegister .b .h s
def execLdBFromL (s : State) : Result := loadRegister .b .l s
def execLdBFromA (s : State) : Result := loadRegister .b .a s
def execLdCFromB (s : State) : Result := loadRegister .c .b s
def execLdCFromC (s : State) : Result := loadRegister .c .c s
def execLdCFromD (s : State) : Result := loadRegister .c .d s
def execLdCFromE (s : State) : Result := loadRegister .c .e s
def execLdCFromH (s : State) : Result := loadRegister .c .h s
def execLdCFromL (s : State) : Result := loadRegister .c .l s
def execLdCFromA (s : State) : Result := loadRegister .c .a s
def execLdDFromB (s : State) : Result := loadRegister .d .b s
def execLdDFromC (s : State) : Result := loadRegister .d .c s
def execLdDFromD (s : State) : Result := loadRegister .d .d s
def execLdDFromE (s : State) : Result := loadRegister .d .e s
def execLdDFromH (s : State) : Result := loadRegister .d .h s
def execLdDFromL (s : State) : Result := loadRegister .d .l s
def execLdDFromA (s : State) : Result := loadRegister .d .a s
def execLdEFromB (s : State) : Result := loadRegister .e .b s
def execLdEFromC (s : State) : Result := loadRegister .e .c s
def execLdEFromD (s : State) : Result := loadRegister .e .d s
def execLdEFromE (s : State) : Result := loadRegister .e .e s
def execLdEFromH (s : State) : Result := loadRegister .e .h s
def execLdEFromL (s : State) : Result := loadRegister .e .l s
def execLdEFromA (s : State) : Result := loadRegister .e .a s
def execLdHFromB (s : State) : Result := loadRegister .h .b s
def execLdHFromC (s : State) : Result := loadRegister .h .c s
def execLdHFromD (s : State) : Result := loadRegister .h .d s
def execLdHFromE (s : State) : Result := loadRegister .h .e s
def execLdHFromH (s : State) : Result := loadRegister .h .h s
def execLdHFromL (s : State) : Result := loadRegister .h .l s
def execLdHFromA (s : State) : Result := loadRegister .h .a s
def execLdLFromB (s : State) : Result := loadRegister .l .b s
def execLdLFromC (s : State) : Result := loadRegister .l .c s
def execLdLFromD (s : State) : Result := loadRegister .l .d s
def execLdLFromE (s : State) : Result := loadRegister .l .e s
def execLdLFromH (s : State) : Result := loadRegister .l .h s
def execLdLFromL (s : State) : Result := loadRegister .l .l s
def execLdLFromA (s : State) : Result := loadRegister .l .a s
def execLdAFromB (s : State) : Result := loadRegister .a .b s
def execLdAFromC (s : State) : Result := loadRegister .a .c s
def execLdAFromD (s : State) : Result := loadRegister .a .d s
def execLdAFromE (s : State) : Result := loadRegister .a .e s
def execLdAFromH (s : State) : Result := loadRegister .a .h s
def execLdAFromL (s : State) : Result := loadRegister .a .l s
def execLdAFromA (s : State) : Result := loadRegister .a .a s

end Sys2Proof.Machine
end

