-- ==== Sys2Proof/Machine/Misc.lean ====
section
/-! DEFINITION. NOP and DI (spec/45_misc.md R230, R231). -/

namespace Sys2Proof.Machine

/-- `IME <- v` (spec/00_scope.md R14). -/
def State.setIme (s : State) (v : Byte) : State := { s with ime := v }

/-- NOP (R230). -/
def execNop (s : State) : Result := commit s (s.advance 1)

/-- DI (R231): IME is cleared at once, to 0x00 (log 11). -/
def execDi (s : State) : Result := commit s ((s.setIme 0x00).advance 1)

end Sys2Proof.Machine
end

