-- ==== Sys2Proof/Machine/Dispatch.lean ====
section
/-! DEFINITION. One arm per instruction (spec/40_step_engine.md R144). -/

namespace Sys2Proof.Machine

def exec (i : Instr) (s : State) : Host.Outcome State Fault Refusal :=
  match i with
  | .nop => Sys2Proof.Machine.execNop s
  | .ldBcD16 d16 => Sys2Proof.Machine.execLdBcD16 d16 s
  | .ldDeD16 d16 => Sys2Proof.Machine.execLdDeD16 d16 s
  | .ldHlD16 d16 => Sys2Proof.Machine.execLdHlD16 d16 s
  | .ldSpD16 d16 => Sys2Proof.Machine.execLdSpD16 d16 s
  | .jrR8 r8 => Sys2Proof.Machine.execJrR8 r8 s
  | .jrNzR8 r8 => Sys2Proof.Machine.execJrNzR8 r8 s
  | .jrZR8 r8 => Sys2Proof.Machine.execJrZR8 r8 s
  | .ldIndHlD8 d8 => Sys2Proof.Machine.execLdIndHlD8 d8 s
  | .ldAD8 d8 => Sys2Proof.Machine.execLdAD8 d8 s
  | .ldBFromB => Sys2Proof.Machine.execLdBFromB s
  | .ldBFromC => Sys2Proof.Machine.execLdBFromC s
  | .ldBFromD => Sys2Proof.Machine.execLdBFromD s
  | .ldBFromE => Sys2Proof.Machine.execLdBFromE s
  | .ldBFromH => Sys2Proof.Machine.execLdBFromH s
  | .ldBFromL => Sys2Proof.Machine.execLdBFromL s
  | .ldBFromA => Sys2Proof.Machine.execLdBFromA s
  | .ldCFromB => Sys2Proof.Machine.execLdCFromB s
  | .ldCFromC => Sys2Proof.Machine.execLdCFromC s
  | .ldCFromD => Sys2Proof.Machine.execLdCFromD s
  | .ldCFromE => Sys2Proof.Machine.execLdCFromE s
  | .ldCFromH => Sys2Proof.Machine.execLdCFromH s
  | .ldCFromL => Sys2Proof.Machine.execLdCFromL s
  | .ldCFromA => Sys2Proof.Machine.execLdCFromA s
  | .ldDFromB => Sys2Proof.Machine.execLdDFromB s
  | .ldDFromC => Sys2Proof.Machine.execLdDFromC s
  | .ldDFromD => Sys2Proof.Machine.execLdDFromD s
  | .ldDFromE => Sys2Proof.Machine.execLdDFromE s
  | .ldDFromH => Sys2Proof.Machine.execLdDFromH s
  | .ldDFromL => Sys2Proof.Machine.execLdDFromL s
  | .ldDFromA => Sys2Proof.Machine.execLdDFromA s
  | .ldEFromB => Sys2Proof.Machine.execLdEFromB s
  | .ldEFromC => Sys2Proof.Machine.execLdEFromC s
  | .ldEFromD => Sys2Proof.Machine.execLdEFromD s
  | .ldEFromE => Sys2Proof.Machine.execLdEFromE s
  | .ldEFromH => Sys2Proof.Machine.execLdEFromH s
  | .ldEFromL => Sys2Proof.Machine.execLdEFromL s
  | .ldEFromA => Sys2Proof.Machine.execLdEFromA s
  | .ldHFromB => Sys2Proof.Machine.execLdHFromB s
  | .ldHFromC => Sys2Proof.Machine.execLdHFromC s
  | .ldHFromD => Sys2Proof.Machine.execLdHFromD s
  | .ldHFromE => Sys2Proof.Machine.execLdHFromE s
  | .ldHFromH => Sys2Proof.Machine.execLdHFromH s
  | .ldHFromL => Sys2Proof.Machine.execLdHFromL s
  | .ldHFromA => Sys2Proof.Machine.execLdHFromA s
  | .ldLFromB => Sys2Proof.Machine.execLdLFromB s
  | .ldLFromC => Sys2Proof.Machine.execLdLFromC s
  | .ldLFromD => Sys2Proof.Machine.execLdLFromD s
  | .ldLFromE => Sys2Proof.Machine.execLdLFromE s
  | .ldLFromH => Sys2Proof.Machine.execLdLFromH s
  | .ldLFromL => Sys2Proof.Machine.execLdLFromL s
  | .ldLFromA => Sys2Proof.Machine.execLdLFromA s
  | .ldAFromB => Sys2Proof.Machine.execLdAFromB s
  | .ldAFromC => Sys2Proof.Machine.execLdAFromC s
  | .ldAFromD => Sys2Proof.Machine.execLdAFromD s
  | .ldAFromE => Sys2Proof.Machine.execLdAFromE s
  | .ldAFromH => Sys2Proof.Machine.execLdAFromH s
  | .ldAFromL => Sys2Proof.Machine.execLdAFromL s
  | .ldAFromA => Sys2Proof.Machine.execLdAFromA s
  | .xorAA => Sys2Proof.Machine.execXorAA s
  | .jpA16 a16 => Sys2Proof.Machine.execJpA16 a16 s
  | .ret => Sys2Proof.Machine.execRet s
  | .callA16 a16 => Sys2Proof.Machine.execCallA16 a16 s
  | .ldhIndA8A a8 => Sys2Proof.Machine.execLdhIndA8A a8 s
  | .andD8 d8 => Sys2Proof.Machine.execAndD8 d8 s
  | .ldIndA16A a16 => Sys2Proof.Machine.execLdIndA16A a16 s
  | .ldhAIndA8 a8 => Sys2Proof.Machine.execLdhAIndA8 a8 s
  | .di => Sys2Proof.Machine.execDi s
  | .cpD8 d8 => Sys2Proof.Machine.execCpD8 d8 s
  | .res0A => Sys2Proof.Machine.execRes0A s

end Sys2Proof.Machine
end

