-- ==== Sys2Proof/Machine/Fetch.lean ====
section
/-! DEFINITION. Instruction fetch (spec/40_step_engine.md R141 to R144; spec/30_encoding.md R113): the opcode byte, the
byte after 0xCB, the lookup and the operand read, in that order (spec/60_exceptions.md R247). -/

namespace Sys2Proof.Machine

/-- The composite key at PC and the number of opcode bytes (R141, R142). An address past 0xFFFF is not wrapped (log 7). -/
def fetchKey (s : State) : Except Fault (Word × Nat) :=
  (memRead8 s.mem s.pc.toNat).bind fun b0 =>
    if b0 = cbMarker then (memRead8 s.mem ((s.pc.toNat : Int) + 1)).map fun b1 => (extendedKey b1, 2)
    else .ok (primaryKey b0, 1)

/-- The row of a key, or UnknownOpcode with the address of the instruction (R143). -/
def lookupRow (gk : Bool) (address key : Word) : Except Fault Row :=
  match lookup gk key with
  | none => .error (.unknownOpcode address key)
  | some row => .ok row

/-- The operand read of R113: nothing, one byte, or one 16-bit read. -/
def fetchOperand (m : Memory) (addr : Int) : Template → Except Fault Instr
  | .op i => .ok i
  | .opI8 build => (memRead8 m addr).map build
  | .opI16 build => (memRead16 m addr).map build

/-- The instruction at PC, or the first fault met in fetching it (R141 to R144). -/
def fetch (gk : Bool) (s : State) : Except Fault Instr :=
  (fetchKey s).bind fun k =>
    (lookupRow gk s.pc k.1).bind fun row => fetchOperand s.mem ((s.pc.toNat : Int) + k.2) row.template

/-- Store bytes from an address upward, those at mapped addresses. -/
def placeBytes (m : Memory) (addr : Nat) : List Byte → Memory
  | [] => m
  | b :: rest => placeBytes (if accessible 1 (addr : Int) then m.write addr b else m) (addr + 1) rest

end Sys2Proof.Machine
end

