-- ==== Sys2Proof/Machine/Step.lean ====
section
/-! DEFINITION. One step (spec/40_step_engine.md R140 to R149). -/

namespace Sys2Proof.Machine

/-- The step of R149 under `P_GK_FORMS = gk`. From Faulted there is no transition: the recorded fault is the outcome
(R148). A fault raised by the fetch or by the instruction is taken: the next state is Faulted with it (R147, log 5). -/
def stepWith (gk : Bool) (s : State) : Host.Outcome State Fault Refusal :=
  match s.mode with
  | .faulted f => .fault f
  | .running => orFault s (fun i => exec i s) (fetch gk s)

/-- The step under the spec's reference value of `P_GK_FORMS` (log 1). -/
def step (s : State) : Host.Outcome State Fault Refusal := stepWith Config.gkForms s

/-- The host's `step()` (R147, R148, R150): the state after the call, and the fault it returns as Err, `none` for Ok. -/
def hostStep (gk : Bool) (s : State) : State × Option Fault :=
  match stepWith gk s with
  | .next t => (t, t.mode.recorded)
  | .fault f => (s, some f)
  | .refused _ => (s, none)

/-- `s` with the instruction of a table word stored at PC, and Running, so that `step` fetches and runs it. -/
def State.withFetchWord (s : State) (nbits w : Nat) : State :=
  { s with mem := placeBytes s.mem s.pc.toNat (tableBytes nbits w), mode := .running }

end Sys2Proof.Machine
end

