-- ==== Sys2Proof/Safety.lean ====
section
/-! DEFINITION. What counts as a safe run, and the invariant of the machine: a run of a given number of steps that stays
Running (spec/40_step_engine.md R152: a Faulted state is a failure, never a successful end). -/

namespace Sys2Proof

/-- `n` calls of `step()` from `s` all return Ok, and the state they reach is `t`. -/
def Safety.RunsTo (gk : Bool) : Nat → Machine.State → Machine.State → Prop
  | 0, s, t => s.mode = .running ∧ t = s
  | n + 1, s, t => ∃ u, s.mode = .running ∧ Machine.stepWith gk s = .next u ∧ Safety.RunsTo gk n u t

/-- `n` calls of `step()` from `s` all return Ok. -/
def Safety.RunsSafely (gk : Bool) (n : Nat) (s : Machine.State) : Prop := ∃ t, Safety.RunsTo gk n s t

/-- A recorded fault is one a step raises, and its payload is true of the state it was raised in, which the fault left as
it was (spec/60_exceptions.md R241 to R245, R248): a MemoryFault's address cannot start a 16-bit access (it is unmapped, or
the last byte of its region); an UnknownOpcode names PC and the unadmitted key read there; a PcOutOfRange names a value
outside [0, 0xFFFF]. -/
def Safety.FaultJustified (gk : Bool) (s : Machine.State) : Machine.Fault → Prop
  | .accessViolation _ _ _ => False
  | .memoryFault a => Machine.accessible 2 a = false
  | .unknownOpcode address key => address = s.pc ∧ lookup gk key = none ∧ ∃ n, Machine.fetchKey s = .ok (key, n)
  | .pcOutOfRange next => next < 0 ∨ 0xFFFF < next
  | .romTooLarge _ => False

/-- The invariant of a run from construction: memory in canonical form, bits 3..0 of F zero (spec/10_state.md R39), and a
recorded fault justified. -/
structure Safety.Inv (gk : Bool) (s : Machine.State) : Prop where
  memory : s.mem.wf
  lowNibble : s.reg8 .f &&& 0x0F#8 = 0x00#8
  fault : ∀ f, s.mode = .faulted f → Safety.FaultJustified gk s f

end Sys2Proof
end

