-- ==== Sys2Proof/Certificates/Slice0/Obligations.lean ====
section
/-! DEFINITION. The statements for the provers. Memory is compared through the model's read of one byte, `memRead8`, which
also says whether an address is mapped. The register file is compared byte by byte: RF[0] is F, RF[1] A, RF[2] C, RF[3] B,
RF[4] E, RF[5] D, RF[6] L, RF[7] H, RF[8], RF[9] SP, RF[10], RF[11] PC (spec/10_state.md R31). -/

open Sys2Proof Sys2Proof.Machine

/-- Every byte of the register file outside `changed` is as before. -/
def Sys2Proof.Claims.SameRegistersExcept (s t : State) (changed : List (Fin 12)) : Prop :=
  ∀ i : Fin 12, i ∉ changed → t.rfByte i = s.rfByte i

/-- Every address outside `stored` reads as before. -/
def Sys2Proof.Claims.SameMemoryExcept (s t : State) (stored : List Int) : Prop :=
  ∀ a : Int, a ∉ stored → memRead8 t.mem a = memRead8 s.mem a

/-- The frame of an instruction that writes the register bytes `changed` and the memory bytes `stored`: everything else of
the state, IME and the mode included, is as before. -/
def Sys2Proof.Claims.Frame (s t : State) (changed : List (Fin 12)) (stored : List Int) : Prop :=
  Claims.SameRegistersExcept s t changed ∧ Claims.SameMemoryExcept s t stored ∧ t.ime = s.ime ∧ t.mode = s.mode

/-- The instruction takes the fault `f`: the next state is the state before, Faulted with `f`. -/
def Sys2Proof.Claims.TakesFault (r : Result) (s : State) (f : Fault) : Prop :=
  r = .next { s with mode := .faulted f }

/-- The 3-bit register codes of spec/30_encoding.md R115; F has none. -/
def Sys2Proof.Claims.registerCode : Reg8 → Option Nat
  | .b => some 0
  | .c => some 1
  | .d => some 2
  | .e => some 3
  | .h => some 4
  | .l => some 5
  | .a => some 7
  | .f => none

/-- The composite key at the front of a list of bytes (R110). -/
def Sys2Proof.Claims.keyOfBytes : List Byte → Word
  | 0xCB :: b1 :: _ => 0x100 ||| b1.setWidth 16
  | b0 :: _ => b0.setWidth 16
  | [] => 0

/-! ## Reset and construction -/

/-- spec/10_state.md R49. -/
def Obligations.RegisterPairsAfterConstruction : Prop :=
  ∀ (image : List Byte) (init : MemInit) (ime : Byte) (s : State),
    s = State.reset ∨ construct image init ime = .ok s →
      s.reg16 .af = 0x01B0 ∧ s.reg16 .bc = 0x0013 ∧ s.reg16 .de = 0x00D8 ∧ s.reg16 .hl = 0x014D ∧
        s.reg16 .sp = 0xFFFE ∧ s.reg16 .pc = 0x0100

/-- spec/10_state.md R54. -/
def Obligations.RomAfterConstructionIsThePaddedImage : Prop :=
  ∀ (image : List Byte) (init : MemInit) (ime : Byte), image.length ≤ 0x8000 →
    ∃ s, construct image init ime = .ok s ∧
      (∀ i : Nat, i < image.length → image[i]? = some (s.mem.read i) ∧ memRead8 s.mem i = .ok (s.mem.read i)) ∧
      ∀ i : Nat, image.length ≤ i → i < 0x8000 → memRead8 s.mem i = .ok 0x00

/-- spec/70_reset_and_hazards.md R271, R272; spec/10_state.md R52, R53, R55. The payload of RomTooLarge is the spec's own
choice (92_eei_decisions.md D9); that IME and the writable regions are parameters of construction is D11 and D12. -/
def Obligations.ConstructionRefusesOversizedImagesAndTakesItsParameters : Prop :=
  ∀ (image : List Byte) (init : MemInit) (ime : Byte),
    (0x8000 < image.length → construct image init ime = .error (.romTooLarge image.length)) ∧
    (image.length ≤ 0x8000 → ∃ s, construct image init ime = .ok s ∧ s.mode = .running ∧ s.ime = ime ∧
      (∀ (i : Nat) (h : i < 8192), memRead8 s.mem (0xC000 + i) = .ok init.workingRam[i]) ∧
      (∀ (i : Nat) (h : i < 76), memRead8 s.mem (0xFF00 + i) = .ok init.ioPorts[i]) ∧
      (∀ (i : Nat) (h : i < 127), memRead8 s.mem (0xFF80 + i) = .ok init.highRam[i]) ∧
      memRead8 s.mem 0xFFFF = .ok init.interruptEnable)

/-- The model's `State.reset` is construction with an empty image and the spec's reference values of `P_MEM_INIT` and
`P_IME_INIT` (the model's choice, logs 3 and 4). -/
def Obligations.ReferenceConstructionIsReset : Prop :=
  construct [] MemInit.reference 0x00 = .ok State.reset

/-- The invariant holds after every construction: bits 3..0 of F are zero (spec/10_state.md R39, R51), and a recorded fault,
if any, is justified. That memory is in canonical form is the model's representation (log 18). That the mode is Running
(R53) is ConstructionRefusesOversizedImagesAndTakesItsParameters. -/
def Obligations.ConstructedStateMeetsTheInvariant : Prop :=
  ∀ (gk : Bool) (image : List Byte) (init : MemInit) (ime : Byte) (s : State),
    construct image init ime = .ok s → Safety.Inv gk s

/-- The invariant holds at reset: bits 3..0 of F are zero (spec/10_state.md R39, R51), and a recorded fault, if any, is
justified. That memory is in canonical form is the model's representation (log 18). -/
def Obligations.ResetMeetsTheInvariant : Prop := ∀ gk : Bool, Safety.Inv gk State.reset

/-! ## Registers and flags -/

/-- spec/10_state.md R32. -/
def Obligations.PairViewsAreLittleEndianOverTheirBytes : Prop :=
  ∀ (s : State) (v : Word),
    (s.reg16 .af = s.reg8 .a ++ s.reg8 .f ∧ s.reg16 .bc = s.reg8 .b ++ s.reg8 .c ∧
      s.reg16 .de = s.reg8 .d ++ s.reg8 .e ∧ s.reg16 .hl = s.reg8 .h ++ s.reg8 .l ∧
      s.reg16 .sp = s.rfByte 9 ++ s.rfByte 8 ∧ s.reg16 .pc = s.rfByte 11 ++ s.rfByte 10) ∧
    ((s.setReg16 .af v).reg8 .f = v.extractLsb' 0 8 ∧ (s.setReg16 .af v).reg8 .a = v.extractLsb' 8 8 ∧
      (s.setReg16 .bc v).reg8 .c = v.extractLsb' 0 8 ∧ (s.setReg16 .bc v).reg8 .b = v.extractLsb' 8 8 ∧
      (s.setReg16 .de v).reg8 .e = v.extractLsb' 0 8 ∧ (s.setReg16 .de v).reg8 .d = v.extractLsb' 8 8 ∧
      (s.setReg16 .hl v).reg8 .l = v.extractLsb' 0 8 ∧ (s.setReg16 .hl v).reg8 .h = v.extractLsb' 8 8 ∧
      (s.setReg16 .sp v).rfByte 8 = v.extractLsb' 0 8 ∧ (s.setReg16 .sp v).rfByte 9 = v.extractLsb' 8 8 ∧
      (s.setReg16 .pc v).rfByte 10 = v.extractLsb' 0 8 ∧ (s.setReg16 .pc v).rfByte 11 = v.extractLsb' 8 8) ∧
    ((s.setReg8 .b 0x12).setReg8 .c 0x34).reg16 .bc = 0x1234 ∧
    (s.setReg16 .hl 0xABCD).reg8 .h = 0xAB ∧ (s.setReg16 .hl 0xABCD).reg8 .l = 0xCD

/-- A write of one view changes no byte of the register file but its own (spec/10_state.md R31, R33, derived there). -/
def Obligations.ViewWritesChangeOnlyTheirOwnBytes : Prop :=
  ∀ (s : State) (r : Reg8) (rr : Reg16) (v : Byte) (w : Word),
    Claims.Frame s (s.setReg8 r v) [reg8Offset r] [] ∧ (s.setReg8 r v).reg8 r = v ∧
    Claims.Frame s (s.setReg16 rr w) [reg16LowOffset rr, reg16HighOffset rr] [] ∧ (s.setReg16 rr w).reg16 rr = w

/-- spec/10_state.md R34, R241 of spec/60_exceptions.md. The payload is the spec's own choice (D9). -/
def Obligations.RegisterViewsRefuseTheOtherWidth : Prop :=
  ∀ (s : State) (r : Reg8) (rr : Reg16) (v : Byte) (w : Word),
    s.viewRead8 (.byte r) = .ok (s.reg8 r) ∧ s.viewWrite8 (.byte r) v = .ok (s.setReg8 r v) ∧
    s.viewRead16 (.word rr) = .ok (s.reg16 rr) ∧ s.viewWrite16 (.word rr) w = .ok (s.setReg16 rr w) ∧
    s.viewRead16 (.byte r) = .error (.accessViolation (.register (.byte r)) .two .read) ∧
    s.viewWrite16 (.byte r) w = .error (.accessViolation (.register (.byte r)) .two .write) ∧
    s.viewRead8 (.word rr) = .error (.accessViolation (.register (.word rr)) .one .read) ∧
    s.viewWrite8 (.word rr) v = .error (.accessViolation (.register (.word rr)) .one .write)

/-- spec/10_state.md R37, with the bit positions of R36. -/
def Obligations.SetFlagWritesExactlyItsBit : Prop :=
  (∀ s : State, (s.flag .zero = (s.reg8 .f).getLsbD 4 ∧ s.flag .halfCarry = (s.reg8 .f).getLsbD 5 ∧
    s.flag .subtraction = (s.reg8 .f).getLsbD 6 ∧ s.flag .carry = (s.reg8 .f).getLsbD 7)) ∧
  ∀ (s : State) (x : Flag) (b : Bool),
    (s.setFlag x b).flag x = b ∧ (∀ y, y ≠ x → (s.setFlag x b).flag y = s.flag y) ∧
    (s.setFlag x b).reg8 .f &&& 0x0F = s.reg8 .f &&& 0x0F ∧ Claims.Frame s (s.setFlag x b) [0] []

/-! ## Memory and the stack -/

/-- spec/20_memory.md R71, R75, R78. That an address outside [0, 0xFFFF] faults and does not wrap is D6 (log 7). -/
def Obligations.DecoderMapsExactlyTheFiveRegions : Prop :=
  ∀ addr : Int, decodeAddr addr =
    if 0 ≤ addr ∧ addr ≤ 0x7FFF then .ok (.rom, addr.toNat)
    else if 0xC000 ≤ addr ∧ addr ≤ 0xDFFF then .ok (.workingRam, (addr - 0xC000).toNat)
    else if 0xFF00 ≤ addr ∧ addr ≤ 0xFF4B then .ok (.ioPorts, (addr - 0xFF00).toNat)
    else if 0xFF80 ≤ addr ∧ addr ≤ 0xFFFE then .ok (.highRam, (addr - 0xFF80).toNat)
    else if addr = 0xFFFF then .ok (.interruptEnable, 0)
    else .error (.memoryFault addr)

/-- A byte store at any address the decoder maps, ROM, I/O and IE included, is read back, and every other byte is as
before; at any other address the store and the load are memory faults (spec/20_memory.md R74 to R76, R80, R82, R92). That
I/O is plain storage is D17 (log 14). -/
def Obligations.ByteStoreIsReadBackAndChangesOneByte : Prop :=
  ∀ (m : Memory) (a : Int) (v : Byte),
    (accessible 1 a = true → ∃ m', memWrite8 m a v = .ok m' ∧ memRead8 m' a = .ok v ∧
      ∀ b, b ≠ a → memRead8 m' b = memRead8 m b) ∧
    (accessible 1 a = false → memWrite8 m a v = .error (.memoryFault a) ∧ memRead8 m a = .error (.memoryFault a))

/-- spec/20_memory.md R81, R83, R89, R98: within one region a word is stored little-endian and read back. The
precondition is that of R98, narrowed by 90_conflicts.md C1. -/
def Obligations.WordStoreIsLittleEndianAndReadBack : Prop :=
  ∀ (m : Memory) (a : Int) (v : Word), accessible 2 a = true →
    ∃ m', memWrite16 m a v = .ok m' ∧ memRead16 m' a = .ok v ∧
      memRead8 m' a = .ok (v.extractLsb' 0 8) ∧ memRead8 m' (a + 1) = .ok (v.extractLsb' 8 8) ∧
      ∀ b, b ≠ a → b ≠ a + 1 → memRead8 m' b = memRead8 m b

/-- spec/20_memory.md R79: a 16-bit access succeeds exactly where both bytes lie in the first byte's region, at any
alignment; at a region's last byte and at unmapped addresses it is a memory fault with the first address (D7, log 8). -/
def Obligations.WordAccessFaultsOutsideOneRegion : Prop :=
  ∀ (m : Memory) (a : Int) (v : Word),
    (¬((0 ≤ a ∧ a ≤ 0x7FFE) ∨ (0xC000 ≤ a ∧ a ≤ 0xDFFE) ∨ (0xFF00 ≤ a ∧ a ≤ 0xFF4A) ∨ (0xFF80 ≤ a ∧ a ≤ 0xFFFD)) →
      memRead16 m a = .error (.memoryFault a) ∧ memWrite16 m a v = .error (.memoryFault a)) ∧
    (((0 ≤ a ∧ a ≤ 0x7FFE) ∨ (0xC000 ≤ a ∧ a ≤ 0xDFFE) ∨ (0xFF00 ≤ a ∧ a ≤ 0xFF4A) ∨ (0xFF80 ≤ a ∧ a ≤ 0xFFFD)) →
      ∃ lo hi m', memRead8 m a = .ok lo ∧ memRead8 m (a + 1) = .ok hi ∧ memRead16 m a = .ok (hi ++ lo) ∧
        memWrite16 m a v = .ok m')

/-- Every memory write keeps the canonical form, and canonical memories that read alike are equal (the model's own
representation, log 18). -/
def Obligations.MemoryWritesKeepTheCanonicalForm : Prop :=
  (∀ (m m' : Memory) (a : Int) (v : Byte), m.wf → memWrite8 m a v = .ok m' → m'.wf) ∧
  (∀ (m m' : Memory) (a : Int) (v : Word), m.wf → memWrite16 m a v = .ok m' → m'.wf) ∧
  ∀ m m' : Memory, m.wf → m'.wf → (∀ a : Int, memRead8 m a = memRead8 m' a) → m = m'

/-- spec/20_memory.md R85 to R88: where the two bytes below SP lie in one region, a push followed by a pop gives the value
back and restores SP, and the push changes only those two bytes; where they do not, the push is a memory fault. The range
in High RAM is SP in [0xFF82, 0xFFFF] (90_conflicts.md C6). SP moves modulo 2^16 (D8, log 9). -/
def Obligations.PushThenPopGivesTheValueBack : Prop :=
  ∀ (s : State) (v : Word),
    (accessible 2 ((s.reg16 .sp - 2).toNat : Int) = true → ∃ t u, s.push v = .ok t ∧ t.reg16 .sp = s.reg16 .sp - 2 ∧
      t.pop = .ok (v, u) ∧ u.reg16 .sp = s.reg16 .sp ∧
      Claims.Frame s t [8, 9] [((s.reg16 .sp - 2).toNat : Int), ((s.reg16 .sp - 2).toNat : Int) + 1]) ∧
    (accessible 2 ((s.reg16 .sp - 2).toNat : Int) = false →
      s.push v = .error (.memoryFault ((s.reg16 .sp - 2).toNat : Int))) ∧
    (0xFF82 ≤ (s.reg16 .sp).toNat → accessible 2 ((s.reg16 .sp - 2).toNat : Int) = true)

/-! ## Encoding -/

/-- For every well-formed instruction, with every operand value its encoding admits and under either `P_GK_FORMS`, decoding
its bytes, whatever follows them, gives it back and leaves what follows (spec/30_encoding.md R112 to R117). -/
def Obligations.DecodeOfEncodeIsTheInstruction : Prop :=
  ∀ (gk : Bool) (i : Instr) (rest : List Byte), i.wellFormed gk = true → decode gk (encode i ++ rest) = .ok (i, rest)

/-- Every decoded instruction is well-formed, and encoding it gives back the bytes it was decoded from. -/
def Obligations.EncodeOfDecodeIsTheBytes : Prop :=
  ∀ (gk : Bool) (bs : List Byte) (i : Instr) (rest : List Byte),
    decode gk bs = .ok (i, rest) → i.wellFormed gk = true ∧ encode i ++ rest = bs

/-- spec/30_encoding.md R117, R122: exactly these keys have a row, 70 of them, 19 when `P_GK_FORMS` is false. The gated
encodings are general knowledge (92_eei_decisions.md D1, D2; log 1, log 12). -/
def Obligations.AdmittedKeysAreExactlyTheTable : Prop :=
  ∀ (gk : Bool) (key : Word), (lookup gk key).isSome = true ↔
    key ∈ ([0x00, 0x01, 0x11, 0x21, 0x31, 0x18, 0x20, 0x28, 0x36, 0xC3, 0xC9, 0xCD, 0xE0, 0xE6, 0xEA, 0xF0, 0xF3, 0xFE,
      0x187] : List Word) ∨
    (gk = true ∧ (key = 0x3E ∨ key = 0xAF ∨
      (0x40 ≤ key.toNat ∧ key.toNat ≤ 0x7F ∧ key.toNat / 8 % 8 ≠ 6 ∧ key.toNat % 8 ≠ 6)))

/-- spec/30_encoding.md R111: a decoded instruction takes exactly the bytes its descriptor's length says: 1, or 2 for a
0xCB-prefixed key, plus 1 for each 8-bit and 2 for each 16-bit immediate. The shapes are the spec's choice (D22). -/
def Obligations.DecodedLengthIsTheDescriptorLength : Prop :=
  ∀ (gk : Bool) (bs : List Byte) (i : Instr) (rest : List Byte), decode gk bs = .ok (i, rest) →
    ∃ row, lookup gk (Claims.keyOfBytes bs) = some row ∧
      bs.length = (if row.descriptor.key.toNat < 0x100 then 1 else 2) +
        (row.descriptor.operand1.bytes + row.descriptor.operand2.bytes) + rest.length

/-- Instruction words written out from the encodings of spec/41_loads.md to 45_misc.md. The word 0x41 of LD B,C is general
knowledge (92_eei_decisions.md D1, D2; log 12). -/
def Obligations.WordsOfEachFamilyDecode : Prop :=
  decode true [0b00000001, 0x34, 0x12] = .ok (.ldBcD16 0x1234, []) ∧
  decode true [0b00110110, 0x5A] = .ok (.ldIndHlD8 0x5A, []) ∧
  decode true [0b01000001] = .ok (.ldBFromC, []) ∧
  decode true [0b11100000, 0x80] = .ok (.ldhIndA8A 0x80, []) ∧
  decode true [0b11100110, 0x0F] = .ok (.andD8 0x0F, []) ∧
  decode true [0b00101000, 0xFE] = .ok (.jrZR8 (-2), []) ∧
  decode true [0b11001101, 0x00, 0x02] = .ok (.callA16 0x0200, []) ∧
  decode true [0b11001011, 0b10000111] = .ok (.res0A, []) ∧
  decode true [0b11110011] = .ok (.di, []) ∧
  decode true [0b11001011, 0x37] = .error (.unknownOpcode 0x137)

/-- LD r,r' is `01dddsss` with the codes of spec/30_encoding.md R115 (general knowledge, D1, D2; log 12), for each of the
49 pairs. -/
def Obligations.LdRegisterOpcodesFollowTheRegisterCodes : Prop :=
  ∀ (i : Instr) (dst src : Reg8), i.ldRegisters = some (dst, src) →
    ∃ d r, Claims.registerCode dst = some d ∧ Claims.registerCode src = some r ∧
      decode true [BitVec.ofNat 8 (0x40 + 8 * d + r)] = .ok (i, [])

/-! ## The step -/

/-- When the bytes at PC decode to `i`, a Running step is `exec i`: each byte the instruction takes is read at PC and
upward, and the two bytes of a 16-bit immediate lie in one region (spec/40_step_engine.md R141 to R144; spec/30_encoding.md
R113; the one-region condition is D7 and D13, log 8). -/
def Obligations.StepRunsTheDecodedInstruction : Prop :=
  ∀ (gk : Bool) (s : State) (bs : List Byte) (i : Instr) (rest : List Byte),
    s.mode = .running → decode gk bs = .ok (i, rest) →
    (∀ (k : Nat) (b : Byte), k + rest.length < bs.length → bs[k]? = some b →
      memRead8 s.mem ((s.pc.toNat : Int) + k) = .ok b) →
    (bs.length = rest.length + 3 → accessible 2 ((s.pc.toNat : Int) + 1) = true) →
    stepWith gk s = exec i s

/-- spec/40_step_engine.md R148: from Faulted there is no transition, and `step()` returns the recorded fault and changes
nothing (D10). -/
def Obligations.FaultedIsTerminal : Prop :=
  ∀ (gk : Bool) (s : State) (f : Fault), s.mode = .faulted f → stepWith gk s = .fault f ∧ hostStep gk s = (s, some f)

/-- Every step from Running answers a next state: it completes or takes a fault, and it refuses nothing (the model's form of
spec/40_step_engine.md R146, R147; log 5). -/
def Obligations.RunningStepAlwaysAnswersNext : Prop :=
  ∀ (gk : Bool) (s : State), s.mode = .running → ∃ t, stepWith gk s = .next t

/-- spec/40_step_engine.md R147. That a fault raised after an effect leaves the pre-step state too is D5 (log 6). The model
shows a raised fault as the next state in mode Faulted (log 5). -/
def Obligations.RaisedFaultLeavesThePreStepState : Prop :=
  ∀ (gk : Bool) (s t : State) (f : Fault), s.mode = .running → stepWith gk s = .next t → t.mode = .faulted f →
    t = { s with mode := .faulted f } ∧ hostStep gk s = (t, some f)

/-- The fault of spec/40_step_engine.md R141, with the addresses of spec/20_memory.md R75. -/
def Obligations.FetchOfAnUnmappedOpcodeFaults : Prop :=
  ∀ (gk : Bool) (s : State), s.mode = .running →
    ((0x8000 ≤ s.pc.toNat ∧ s.pc.toNat ≤ 0xBFFF) ∨ (0xE000 ≤ s.pc.toNat ∧ s.pc.toNat ≤ 0xFEFF) ∨
      (0xFF4C ≤ s.pc.toNat ∧ s.pc.toNat ≤ 0xFF7F)) →
    Claims.TakesFault (stepWith gk s) s (.memoryFault s.pc.toNat)

/-- spec/40_step_engine.md R142: the byte after 0xCB is read at PC + 1, which is not wrapped (D6, log 7). -/
def Obligations.CbMarkerBeforeAnUnmappedByteFaults : Prop :=
  ∀ (gk : Bool) (s : State), s.mode = .running → memRead8 s.mem s.pc.toNat = .ok 0xCB →
    accessible 1 ((s.pc.toNat : Int) + 1) = false →
    Claims.TakesFault (stepWith gk s) s (.memoryFault ((s.pc.toNat : Int) + 1))

/-- spec/40_step_engine.md R143; spec/30_encoding.md R121: a key with no row is UnknownOpcode with the address of the first
byte and the composite key (payload D18, log 13), and no operand is read. -/
def Obligations.UnadmittedKeyIsUnknownOpcode : Prop :=
  ∀ (gk : Bool) (s : State) (b0 b1 : Byte), s.mode = .running → memRead8 s.mem s.pc.toNat = .ok b0 →
    (b0 ≠ 0xCB → lookup gk (b0.setWidth 16) = none →
      Claims.TakesFault (stepWith gk s) s (.unknownOpcode s.pc (b0.setWidth 16))) ∧
    (b0 = 0xCB → memRead8 s.mem ((s.pc.toNat : Int) + 1) = .ok b1 → lookup gk (0x100 ||| b1.setWidth 16) = none →
      Claims.TakesFault (stepWith gk s) s (.unknownOpcode s.pc (0x100 ||| b1.setWidth 16)))

/-- spec/30_encoding.md R113; spec/60_exceptions.md R247: an admitted opcode whose immediate cannot be read is a memory
fault at PC + 1, before any effect and before the next-PC check (D13, D14; logs 7, 8, 13). -/
def Obligations.UnreadableOperandFaultsBeforeAnyEffect : Prop :=
  ∀ (gk : Bool) (s : State) (b0 : Byte) (row : Row), s.mode = .running → memRead8 s.mem s.pc.toNat = .ok b0 →
    b0 ≠ 0xCB → lookup gk (b0.setWidth 16) = some row →
    ((row.descriptor.operand1 = .imm8 ∨ row.descriptor.operand2 = .imm8) → accessible 1 ((s.pc.toNat : Int) + 1) = false →
      Claims.TakesFault (stepWith gk s) s (.memoryFault ((s.pc.toNat : Int) + 1))) ∧
    ((row.descriptor.operand1 = .imm16 ∨ row.descriptor.operand2 = .imm16) →
      accessible 2 ((s.pc.toNat : Int) + 1) = false →
      Claims.TakesFault (stepWith gk s) s (.memoryFault ((s.pc.toNat : Int) + 1)))

/-- spec/60_exceptions.md R241, R245, R246: a step raises MemoryFault, UnknownOpcode or PcOutOfRange, never an access
violation, and never RomTooLarge. -/
def Obligations.StepsRaiseOnlyThreeFaults : Prop :=
  ∀ (gk : Bool) (s t : State) (f : Fault), s.mode = .running → stepWith gk s = .next t → t.mode = .faulted f →
    (∃ a, f = .memoryFault a) ∨ (∃ key, f = .unknownOpcode s.pc key) ∨ ∃ n, f = .pcOutOfRange n

/-- From every state that meets the invariant, every step gives a state that meets it: memory stays canonical (the model's
representation, log 18), bits 3..0 of F stay zero (spec/10_state.md R39), and a recorded fault is true of the state it was
raised in, with the payloads of log 13 (D9, D18); that this is the pre-step state is D5 (log 6). -/
def Obligations.EveryStepKeepsTheInvariant : Prop :=
  ∀ (gk : Bool) (s t : State), Safety.Inv gk s → stepWith gk s = .next t → Safety.Inv gk t

/-- A safe run of any length from a state that meets the invariant ends Running in a state that meets it
(spec/40_step_engine.md R152; spec/10_state.md R39). The invariant's canonical memory is the model's representation
(log 18). -/
def Obligations.SafeRunsEndRunningInTheInvariant : Prop :=
  ∀ (gk : Bool) (n : Nat) (s t : State), Safety.Inv gk s → Safety.RunsTo gk n s t → Safety.Inv gk t ∧ t.mode = .running

/-- spec/10_state.md R44: a step that changes IME runs DI, and leaves 0x00 in it (D12, log 11). -/
def Obligations.OnlyDiWritesIme : Prop :=
  ∀ (gk : Bool) (s t : State), stepWith gk s = .next t → t.ime ≠ s.ime → fetch gk s = .ok .di ∧ t.ime = 0x00

/-- spec/10_state.md R44; spec/60_exceptions.md R252: nothing in the core acts on IME. Two states that differ only in IME
step to the same outcome but for IME (D23, log 15). -/
def Obligations.ImeSteersNothing : Prop :=
  ∀ (gk : Bool) (s : State) (v : Byte),
    (∀ t, stepWith gk s = .next t →
      ∃ t', stepWith gk { s with ime := v } = .next t' ∧ { t' with ime := 0 } = { t with ime := 0 }) ∧
    ∀ f, stepWith gk s = .fault f → stepWith gk { s with ime := v } = .fault f

/-- spec/10_state.md R41 (derived there): HalfCarry, Subtraction and Carry steer nothing. Two states that differ only in
bits 7..5 of F step to states that differ only there, whatever `P_CP_NHC` is. -/
def Obligations.UpperFlagsSteerNothing : Prop :=
  ∀ (gk : Bool) (s : State) (v : Byte), v &&& 0x1F = s.reg8 .f &&& 0x1F →
    (∀ t, stepWith gk s = .next t →
      ∃ t', stepWith gk (s.setReg8 .f v) = .next t' ∧ t'.setReg8 .f 0 = t.setReg8 .f 0 ∧
        t'.reg8 .f &&& 0x1F = t.reg8 .f &&& 0x1F) ∧
    ∀ f, stepWith gk s = .fault f → stepWith gk (s.setReg8 .f v) = .fault f

/-- spec/10_state.md R40 (derived there): a step that changes F runs XOR A,A, AND d8 or CP d8. -/
def Obligations.OnlyTheArithmeticGroupWritesF : Prop :=
  ∀ (gk : Bool) (s t : State), stepWith gk s = .next t → t.reg8 .f ≠ s.reg8 .f →
    fetch gk s = .ok .xorAA ∨ (∃ d8, fetch gk s = .ok (.andD8 d8)) ∨ ∃ d8, fetch gk s = .ok (.cpD8 d8)

/-- spec/60_exceptions.md R244, R246; spec/41_loads.md R170, R174; spec/43_control.md R203: a step that runs an instruction
with a 16-bit immediate, or RET, never raises PcOutOfRange; and where the immediate was read, PC + 3 fits 16 bits. -/
def Obligations.WordImmediateFormsAndRetNeverLeaveTheRange : Prop :=
  ∀ (gk : Bool) (s t : State) (i : Instr) (w : Word), s.mode = .running → fetch gk s = .ok i →
    i ∈ [.ldBcD16 w, .ldDeD16 w, .ldHlD16 w, .ldSpD16 w, .ldIndA16A w, .jpA16 w, .callA16 w, .ret] →
    stepWith gk s = .next t →
    (∀ n, t.mode ≠ .faulted (.pcOutOfRange n)) ∧ (i ≠ .ret → s.pc.toNat + 3 ≤ 0xFFFF)

/-! ## What each instruction does: it completes, with these results and this frame -/

/-- NOP (spec/45_misc.md R230). -/
def Obligations.NopOnlyAdvancesPc : Prop :=
  ∀ s : State, s.pc.toNat + 1 ≤ 0xFFFF →
    ∃ t, exec .nop s = .next t ∧ t.pc.toNat = s.pc.toNat + 1 ∧ Claims.Frame s t [10, 11] []

/-- LD BC,d16; LD DE,d16; LD HL,d16; LD SP,d16 (spec/41_loads.md R170). -/
def Obligations.LoadPairImmediateWritesThePair : Prop :=
  ∀ (s : State) (d16 : Word), s.pc.toNat + 3 ≤ 0xFFFF →
    (∃ t, exec (.ldBcD16 d16) s = .next t ∧ t.reg16 .bc = d16 ∧ t.pc.toNat = s.pc.toNat + 3 ∧
      Claims.Frame s t [2, 3, 10, 11] []) ∧
    (∃ t, exec (.ldDeD16 d16) s = .next t ∧ t.reg16 .de = d16 ∧ t.pc.toNat = s.pc.toNat + 3 ∧
      Claims.Frame s t [4, 5, 10, 11] []) ∧
    (∃ t, exec (.ldHlD16 d16) s = .next t ∧ t.reg16 .hl = d16 ∧ t.pc.toNat = s.pc.toNat + 3 ∧
      Claims.Frame s t [6, 7, 10, 11] []) ∧
    ∃ t, exec (.ldSpD16 d16) s = .next t ∧ t.reg16 .sp = d16 ∧ t.pc.toNat = s.pc.toNat + 3 ∧
      Claims.Frame s t [8, 9, 10, 11] []

/-- LD (HL),d8 (spec/41_loads.md R171). -/
def Obligations.StoreImmediateAtHlWritesOneByte : Prop :=
  ∀ (s : State) (d8 : Byte), s.pc.toNat + 2 ≤ 0xFFFF → accessible 1 (addrHl s) = true →
    ∃ t, exec (.ldIndHlD8 d8) s = .next t ∧ memRead8 t.mem (addrHl s) = .ok d8 ∧ t.pc.toNat = s.pc.toNat + 2 ∧
      Claims.Frame s t [10, 11] [addrHl s]

/-- LD A,d8 (spec/41_loads.md R172). -/
def Obligations.LoadAImmediateWritesA : Prop :=
  ∀ (s : State) (d8 : Byte), s.pc.toNat + 2 ≤ 0xFFFF →
    ∃ t, exec (.ldAD8 d8) s = .next t ∧ t.reg8 .a = d8 ∧ t.pc.toNat = s.pc.toNat + 2 ∧ Claims.Frame s t [1, 10, 11] []

/-- LD r,r' (spec/41_loads.md R173), for all 49 constructors `ldXFromY` of `Instr.ldRegisters`. -/
def Obligations.LoadRegisterCopiesTheSource : Prop :=
  ∀ (s : State) (i : Instr) (dst src : Reg8), i.ldRegisters = some (dst, src) → s.pc.toNat + 1 ≤ 0xFFFF →
    ∃ t, exec i s = .next t ∧ t.reg8 dst = s.reg8 src ∧ t.pc.toNat = s.pc.toNat + 1 ∧
      Claims.Frame s t [reg8Offset dst, 10, 11] []

/-- LD (a16),A (spec/41_loads.md R174) and LDH (a8),A (R175). -/
def Obligations.StoreAWritesOneByte : Prop :=
  ∀ (s : State) (a16 : Word) (a8 : Byte),
    (s.pc.toNat + 3 ≤ 0xFFFF → accessible 1 (addrA16 a16) = true →
      ∃ t, exec (.ldIndA16A a16) s = .next t ∧ memRead8 t.mem (addrA16 a16) = .ok (s.reg8 .a) ∧
        t.pc.toNat = s.pc.toNat + 3 ∧ Claims.Frame s t [10, 11] [addrA16 a16]) ∧
    (s.pc.toNat + 2 ≤ 0xFFFF → accessible 1 (addrA8 a8) = true →
      ∃ t, exec (.ldhIndA8A a8) s = .next t ∧ memRead8 t.mem (addrA8 a8) = .ok (s.reg8 .a) ∧
        t.pc.toNat = s.pc.toNat + 2 ∧ Claims.Frame s t [10, 11] [addrA8 a8]) ∧
    addrA16 a16 = a16.toNat ∧ addrA8 a8 = 0xFF00 + a8.toNat

/-- LDH A,(a8) (spec/41_loads.md R176). -/
def Obligations.LoadAHighPageReadsTheByte : Prop :=
  ∀ (s : State) (a8 v : Byte), s.pc.toNat + 2 ≤ 0xFFFF → memRead8 s.mem (0xFF00 + a8.toNat) = .ok v →
    ∃ t, exec (.ldhAIndA8 a8) s = .next t ∧ t.reg8 .a = v ∧ t.pc.toNat = s.pc.toNat + 2 ∧ Claims.Frame s t [1, 10, 11] []

/-- XOR A,A (spec/42_arithmetic.md R190). -/
def Obligations.XorAAClearsAAndSetsOnlyZero : Prop :=
  ∀ s : State, s.pc.toNat + 1 ≤ 0xFFFF →
    ∃ t, exec .xorAA s = .next t ∧ t.reg8 .a = 0x00 ∧ t.reg8 .f = 0x10 ∧ t.flag .zero = true ∧
      t.flag .halfCarry = false ∧ t.flag .subtraction = false ∧ t.flag .carry = false ∧
      t.pc.toNat = s.pc.toNat + 1 ∧ Claims.Frame s t [0, 1, 10, 11] []

/-- AND d8 (spec/42_arithmetic.md R191). That Zero is also cleared when the result is not 0 is D3 (log 10). -/
def Obligations.AndImmediateResultAndFlags : Prop :=
  ∀ (s : State) (d8 : Byte), s.pc.toNat + 2 ≤ 0xFFFF →
    ∃ t, exec (.andD8 d8) s = .next t ∧ t.reg8 .a = s.reg8 .a &&& d8 ∧
      t.flag .zero = decide (s.reg8 .a &&& d8 = 0x00) ∧ t.flag .halfCarry = true ∧ t.flag .subtraction = false ∧
      t.flag .carry = false ∧ t.reg8 .f &&& 0x0F = s.reg8 .f &&& 0x0F ∧
      t.pc.toNat = s.pc.toNat + 2 ∧ Claims.Frame s t [0, 1, 10, 11] []

/-- CP d8 (spec/42_arithmetic.md R192), for every `P_CP_NHC`: N, H and C are the free value `Config.cpNhc` of A, d8 and the
old N, H, C (log 2). That Zero is also cleared when A and d8 differ is D3 (log 10). -/
def Obligations.CompareImmediateFlags : Prop :=
  ∀ (s : State) (d8 : Byte), s.pc.toNat + 2 ≤ 0xFFFF →
    ∃ t, exec (.cpD8 d8) s = .next t ∧ t.flag .zero = decide (s.reg8 .a = d8) ∧
      (t.flag .subtraction, t.flag .halfCarry, t.flag .carry) =
        Config.cpNhc (s.reg8 .a) d8 (s.flag .subtraction) (s.flag .halfCarry) (s.flag .carry) ∧
      t.reg8 .f &&& 0x0F = s.reg8 .f &&& 0x0F ∧ t.pc.toNat = s.pc.toNat + 2 ∧ Claims.Frame s t [0, 10, 11] []

/-- JR r8 (spec/43_control.md R200): the exact sum, when it lies in [0, 0xFFFF] (D27). -/
def Obligations.JumpRelativeAddsTheDisplacement : Prop :=
  ∀ (s : State) (r8 : Int), 0 ≤ (s.pc.toNat : Int) + 2 + r8 → (s.pc.toNat : Int) + 2 + r8 ≤ 0xFFFF →
    ∃ t, exec (.jrR8 r8) s = .next t ∧ (t.pc.toNat : Int) = s.pc.toNat + 2 + r8 ∧ Claims.Frame s t [10, 11] []

/-- JR NZ,r8 and JR Z,r8 (spec/43_control.md R201): taken when Zero is clear, set; else only the 2 bytes. -/
def Obligations.JumpRelativeOnZeroBothWays : Prop :=
  ∀ (s : State) (r8 next : Int), 0 ≤ next → next ≤ 0xFFFF →
    (next = s.pc.toNat + 2 + (if s.flag .zero = false then r8 else 0) →
      ∃ t, exec (.jrNzR8 r8) s = .next t ∧ (t.pc.toNat : Int) = next ∧ Claims.Frame s t [10, 11] []) ∧
    (next = s.pc.toNat + 2 + (if s.flag .zero = true then r8 else 0) →
      ∃ t, exec (.jrZR8 r8) s = .next t ∧ (t.pc.toNat : Int) = next ∧ Claims.Frame s t [10, 11] [])

/-- JP a16 (spec/43_control.md R202): any target is accepted. -/
def Obligations.JumpAbsoluteSetsPc : Prop :=
  ∀ (s : State) (a16 : Word), ∃ t, exec (.jpA16 a16) s = .next t ∧ t.pc = a16 ∧ Claims.Frame s t [10, 11] []

/-- CALL a16 (spec/43_control.md R203): the return address PC + 3 at SP - 2, low byte first, then the jump. In states no
step reaches, with PC at 0xFFFD or above, the return address is PC + 3 modulo 2^16 (log 19). SP moves modulo 2^16 (D8,
log 9), and the condition that both bytes lie in one region is D7 (log 8). -/
def Obligations.CallPushesTheReturnAddress : Prop :=
  ∀ (s : State) (a16 : Word), accessible 2 (s.pushAddress.toNat : Int) = true →
    ∃ t, exec (.callA16 a16) s = .next t ∧ t.pc = a16 ∧ t.reg16 .sp = s.reg16 .sp - 2 ∧
      memRead8 t.mem s.pushAddress.toNat = .ok ((s.pc + 3).extractLsb' 0 8) ∧
      memRead8 t.mem ((s.pushAddress.toNat : Int) + 1) = .ok ((s.pc + 3).extractLsb' 8 8) ∧
      Claims.Frame s t [8, 9, 10, 11] [(s.pushAddress.toNat : Int), (s.pushAddress.toNat : Int) + 1]

/-- RET (spec/43_control.md R204): the word at SP becomes PC, and SP moves up by 2, modulo 2^16 (D8, log 9). -/
def Obligations.ReturnPopsTheTarget : Prop :=
  ∀ (s : State) (target : Word), memRead16 s.mem ((s.reg16 .sp).toNat : Int) = .ok target →
    ∃ t, exec .ret s = .next t ∧ t.pc = target ∧ t.reg16 .sp = s.reg16 .sp + 2 ∧ Claims.Frame s t [8, 9, 10, 11] []

/-- RES 0,A (spec/44_bit.md R220). -/
def Obligations.ResetBitClearsBitZeroOfA : Prop :=
  ∀ s : State, s.pc.toNat + 2 ≤ 0xFFFF →
    ∃ t, exec .res0A s = .next t ∧ (t.reg8 .a).getLsbD 0 = false ∧
      (∀ k, 1 ≤ k → k < 8 → (t.reg8 .a).getLsbD k = (s.reg8 .a).getLsbD k) ∧
      t.pc.toNat = s.pc.toNat + 2 ∧ Claims.Frame s t [1, 10, 11] []

/-- DI (spec/45_misc.md R231): IME becomes 0x00 at once (D12, log 11); registers, memory and mode are as before. -/
def Obligations.DisableInterruptsClearsIme : Prop :=
  ∀ s : State, s.pc.toNat + 1 ≤ 0xFFFF →
    ∃ t, exec .di s = .next t ∧ t.ime = 0x00 ∧ t.pc.toNat = s.pc.toNat + 1 ∧
      Claims.SameRegistersExcept s t [10, 11] ∧ Claims.SameMemoryExcept s t [] ∧ t.mode = s.mode

/-! ## Where each instruction takes a fault instead -/

/-- spec/60_exceptions.md R244, R246: a fixed advance past 0xFFFF is PcOutOfRange with the exact sum, and no write of the
step remains (D5, log 6; D27). -/
def Obligations.FixedAdvancePastTheTopFaults : Prop :=
  ∀ (s : State) (i : Instr) (d8 a8 : Byte) (k : Nat), 0xFFFF < s.pc.toNat + k →
    ((k = 1 ∧ (i = .nop ∨ i = .xorAA ∨ i = .di ∨ i.ldRegisters.isSome = true)) ∨
      (k = 2 ∧ (i = .res0A ∨ i = .ldAD8 d8 ∨ i = .andD8 d8 ∨ i = .cpD8 d8 ∨
        (i = .ldIndHlD8 d8 ∧ accessible 1 (addrHl s) = true) ∨
        ((i = .ldhIndA8A a8 ∨ i = .ldhAIndA8 a8) ∧ accessible 1 (addrA8 a8) = true)))) →
    Claims.TakesFault (exec i s) s (.pcOutOfRange ((s.pc.toNat : Int) + k))

/-- spec/41_loads.md R171, R174 to R176: a data access at an unmapped address is a memory fault with that address, before
the next-PC check (D14, log 13), and nothing else changes (D5, log 6). -/
def Obligations.UnmappedDataAddressFaults : Prop :=
  ∀ (s : State) (d8 a8 : Byte) (a16 : Word),
    (accessible 1 (addrHl s) = false → Claims.TakesFault (exec (.ldIndHlD8 d8) s) s (.memoryFault (addrHl s))) ∧
    (accessible 1 (addrA16 a16) = false →
      Claims.TakesFault (exec (.ldIndA16A a16) s) s (.memoryFault (addrA16 a16))) ∧
    (0x4C ≤ a8.toNat → a8.toNat ≤ 0x7F →
      Claims.TakesFault (exec (.ldhIndA8A a8) s) s (.memoryFault (0xFF00 + a8.toNat)) ∧
      Claims.TakesFault (exec (.ldhAIndA8 a8) s) s (.memoryFault (0xFF00 + a8.toNat)))

/-- spec/43_control.md R200, R201: a taken or not-taken next PC outside [0, 0xFFFF] is PcOutOfRange with the exact sum
(D27). -/
def Obligations.RelativeJumpOutOfRangeFaults : Prop :=
  ∀ (s : State) (r8 next : Int), next < 0 ∨ 0xFFFF < next →
    (next = s.pc.toNat + 2 + r8 → Claims.TakesFault (exec (.jrR8 r8) s) s (.pcOutOfRange next)) ∧
    (next = s.pc.toNat + 2 + (if s.flag .zero = false then r8 else 0) →
      Claims.TakesFault (exec (.jrNzR8 r8) s) s (.pcOutOfRange next)) ∧
    (next = s.pc.toNat + 2 + (if s.flag .zero = true then r8 else 0) →
      Claims.TakesFault (exec (.jrZR8 r8) s) s (.pcOutOfRange next))

/-- spec/43_control.md R203, R204; spec/20_memory.md R88: CALL and RET are memory faults where their two stack bytes do not
lie in one region (D7, log 8), with SP - 2 modulo 2^16, and SP (D8, log 9); SP and PC keep their values. -/
def Obligations.StackAccessOutsideOneRegionFaults : Prop :=
  ∀ (s : State) (a16 : Word),
    (accessible 2 ((s.reg16 .sp - 2).toNat : Int) = false →
      Claims.TakesFault (exec (.callA16 a16) s) s (.memoryFault ((s.reg16 .sp - 2).toNat : Int))) ∧
    (accessible 2 ((s.reg16 .sp).toNat : Int) = false →
      Claims.TakesFault (exec .ret s) s (.memoryFault ((s.reg16 .sp).toNat : Int)))
end

