-- ==== Sys2Proof/Laws/State.lean ====
section
/-! SUPPORT. One lemma per field per update of the state, each true by `rfl`. -/

namespace Sys2Proof.Machine

variable (s : State) (i j : Fin 12) (r : Reg8) (rr : Reg16) (v : Byte) (w : Word) (m : Memory) (f : Fault)

@[simp] theorem setRfByte_mem : (s.setRfByte i v).mem = s.mem := rfl
@[simp] theorem setRfByte_ime : (s.setRfByte i v).ime = s.ime := rfl
@[simp] theorem setRfByte_mode : (s.setRfByte i v).mode = s.mode := rfl

@[simp] theorem setReg8_mem : (s.setReg8 r v).mem = s.mem := rfl
@[simp] theorem setReg8_ime : (s.setReg8 r v).ime = s.ime := rfl
@[simp] theorem setReg8_mode : (s.setReg8 r v).mode = s.mode := rfl

@[simp] theorem setReg16_mem : (s.setReg16 rr w).mem = s.mem := rfl
@[simp] theorem setReg16_ime : (s.setReg16 rr w).ime = s.ime := rfl
@[simp] theorem setReg16_mode : (s.setReg16 rr w).mode = s.mode := rfl

@[simp] theorem jump_mem : (s.jump w).mem = s.mem := rfl
@[simp] theorem jump_ime : (s.jump w).ime = s.ime := rfl
@[simp] theorem jump_mode : (s.jump w).mode = s.mode := rfl

@[simp] theorem setIme_rfByte : (s.setIme v).rfByte i = s.rfByte i := rfl
@[simp] theorem setIme_reg8 : (s.setIme v).reg8 r = s.reg8 r := rfl
@[simp] theorem setIme_reg16 : (s.setIme v).reg16 rr = s.reg16 rr := rfl
@[simp] theorem setIme_pc : (s.setIme v).pc = s.pc := rfl
@[simp] theorem setIme_mem : (s.setIme v).mem = s.mem := rfl
@[simp] theorem setIme_ime : (s.setIme v).ime = v := rfl
@[simp] theorem setIme_mode : (s.setIme v).mode = s.mode := rfl

@[simp] theorem enterFaulted_rfByte : (s.enterFaulted f).rfByte i = s.rfByte i := rfl
@[simp] theorem enterFaulted_reg8 : (s.enterFaulted f).reg8 r = s.reg8 r := rfl
@[simp] theorem enterFaulted_reg16 : (s.enterFaulted f).reg16 rr = s.reg16 rr := rfl
@[simp] theorem enterFaulted_pc : (s.enterFaulted f).pc = s.pc := rfl
@[simp] theorem enterFaulted_mem : (s.enterFaulted f).mem = s.mem := rfl
@[simp] theorem enterFaulted_ime : (s.enterFaulted f).ime = s.ime := rfl
@[simp] theorem enterFaulted_mode : (s.enterFaulted f).mode = .faulted f := rfl

@[simp] theorem withMem_rfByte : State.rfByte { s with mem := m } i = s.rfByte i := rfl
@[simp] theorem withMem_reg8 : State.reg8 { s with mem := m } r = s.reg8 r := rfl
@[simp] theorem withMem_reg16 : State.reg16 { s with mem := m } rr = s.reg16 rr := rfl
@[simp] theorem withMem_pc : State.pc { s with mem := m } = s.pc := rfl

end Sys2Proof.Machine
end

