-- ==== Sys2Proof/Laws/Registers.lean ====
section
/-! SUPPORT. Byte order, and the register file as twelve bytes seen through its views. -/

namespace Sys2Proof

theorem getLsbD_wordOf (hi lo : Byte) (k : Nat) :
    (wordOf hi lo).getLsbD k = if k < 8 then lo.getLsbD k else hi.getLsbD (k - 8) :=
  BitVec.getLsbD_append

theorem getLsbD_loByte (w : Word) (k : Nat) : (loByte w).getLsbD k = (decide (k < 8) && w.getLsbD k) := by
  simp [loByte]

theorem getLsbD_hiByte (w : Word) (k : Nat) : (hiByte w).getLsbD k = (decide (k < 8) && w.getLsbD (8 + k)) := by
  simp [hiByte]

@[simp] theorem loByte_wordOf (hi lo : Byte) : loByte (wordOf hi lo) = lo := by
  apply BitVec.eq_of_getLsbD_eq
  intro k hk
  rw [getLsbD_loByte, getLsbD_wordOf, if_pos hk]
  simp [hk]

@[simp] theorem hiByte_wordOf (hi lo : Byte) : hiByte (wordOf hi lo) = hi := by
  apply BitVec.eq_of_getLsbD_eq
  intro k hk
  rw [getLsbD_hiByte, getLsbD_wordOf, if_neg (by omega), Nat.add_sub_cancel_left]
  simp [hk]

@[simp] theorem wordOf_hiByte_loByte (w : Word) : wordOf (hiByte w) (loByte w) = w := by
  apply BitVec.eq_of_getLsbD_eq
  intro k hk
  rw [getLsbD_wordOf]
  split
  · next h => rw [getLsbD_loByte]; simp [h]
  · next h => rw [getLsbD_hiByte, show 8 + (k - 8) = k by omega]; simp [show k - 8 < 8 by omega]

/-- A displacement in range survives its byte (spec/30_encoding.md R113). -/
theorem sext8_displacementByte {r8 : Int} (h : displacementInRange r8 = true) : sext8 (displacementByte r8) = r8 := by
  simp only [displacementInRange, Bool.and_eq_true, decide_eq_true_eq] at h
  simp only [sext8, displacementByte, BitVec.toInt_ofInt]
  exact Int.bmod_eq_of_le (by omega) (by omega)

theorem displacementInRange_sext8 (b : Byte) : displacementInRange (sext8 b) = true := by
  have h1 : -128 ≤ sext8 b := BitVec.le_toInt b
  have h2 : sext8 b < 128 := BitVec.toInt_lt
  simp only [displacementInRange, Bool.and_eq_true, decide_eq_true_eq]
  omega

@[simp] theorem displacementByte_sext8 (b : Byte) : displacementByte (sext8 b) = b := by
  simp [displacementByte, sext8]

namespace Machine

/-- Two states are equal when they agree on the twelve register bytes, memory, IME and mode. -/
theorem state_ext {s t : State} (hrf : ∀ i, s.rfByte i = t.rfByte i) (hmem : s.mem = t.mem) (hime : s.ime = t.ime)
    (hmode : s.mode = t.mode) : s = t := by
  obtain ⟨rf, mem, ime, mode⟩ := s
  obtain ⟨rf', mem', ime', mode'⟩ := t
  have : rf = rf' := Vector.ext fun i hi => hrf ⟨i, hi⟩
  simp_all

@[simp] theorem rfByte_setRfByte (s : State) (i j : Fin 12) (v : Byte) :
    (s.setRfByte i v).rfByte j = if j = i then v else s.rfByte j := by
  simp only [State.rfByte, State.setRfByte, Vector.getElem_set, Fin.ext_iff, eq_comm]

@[simp] theorem rfByte_setReg8 (s : State) (r : Reg8) (j : Fin 12) (v : Byte) :
    (s.setReg8 r v).rfByte j = if j = reg8Offset r then v else s.rfByte j := by
  simp [State.setReg8]

@[simp] theorem rfByte_setReg16 (s : State) (r : Reg16) (j : Fin 12) (v : Word) :
    (s.setReg16 r v).rfByte j =
      if j = reg16HighOffset r then hiByte v else if j = reg16LowOffset r then loByte v else s.rfByte j := by
  simp [State.setReg16]

@[simp] theorem rfByte_jump (s : State) (j : Fin 12) (v : Word) :
    (s.jump v).rfByte j = if j = 11 then hiByte v else if j = 10 then loByte v else s.rfByte j := by
  exact rfByte_setReg16 s .pc j v

theorem reg8Offset_injective {r r' : Reg8} (h : reg8Offset r = reg8Offset r') : r = r' := by
  cases r <;> cases r' <;> first | rfl | exact absurd h (by decide)

/-- An 8-bit view reads back what was written to it, and no other 8-bit view changes. -/
@[simp] theorem reg8_setReg8 (s : State) (r r' : Reg8) (v : Byte) :
    (s.setReg8 r v).reg8 r' = if r' = r then v else s.reg8 r' := by
  by_cases h : r' = r
  · simp [State.reg8, h]
  · have : reg8Offset r' ≠ reg8Offset r := fun e => h (reg8Offset_injective e)
    simp [State.reg8, h, this]

/-- A 16-bit view reads back what was written to it, and no other 16-bit view changes. -/
@[simp] theorem reg16_setReg16 (s : State) (r r' : Reg16) (v : Word) :
    (s.setReg16 r v).reg16 r' = if r' = r then v else s.reg16 r' := by
  cases r <;> cases r' <;> simp [State.reg16, reg16HighOffset, reg16LowOffset]

/-- The 8-bit views under a 16-bit write: they are the same bytes (R32). -/
theorem reg8_setReg16 (s : State) (r : Reg16) (r' : Reg8) (v : Word) :
    (s.setReg16 r v).reg8 r' = if reg8Offset r' = reg16HighOffset r then hiByte v
      else if reg8Offset r' = reg16LowOffset r then loByte v else s.reg8 r' := by
  simp [State.reg8]

/-- The 16-bit views under an 8-bit write (R32). -/
theorem reg16_setReg8 (s : State) (r : Reg8) (r' : Reg16) (v : Byte) :
    (s.setReg8 r v).reg16 r' = wordOf (if reg16HighOffset r' = reg8Offset r then v else s.rfByte (reg16HighOffset r'))
      (if reg16LowOffset r' = reg8Offset r then v else s.rfByte (reg16LowOffset r')) := by
  simp [State.reg16]

/-- PC has no 8-bit view (R33). -/
@[simp] theorem pc_setReg8 (s : State) (r : Reg8) (v : Byte) : (s.setReg8 r v).pc = s.pc := by
  cases r <;> simp [State.pc, reg8Offset, reg16HighOffset, reg16LowOffset, State.reg16]

/-- SP has no 8-bit view (R33). -/
@[simp] theorem sp_setReg8 (s : State) (r : Reg8) (v : Byte) : (s.setReg8 r v).reg16 .sp = s.reg16 .sp := by
  cases r <;> simp [reg8Offset, reg16HighOffset, reg16LowOffset, State.reg16]

@[simp] theorem pc_setReg16 (s : State) (r : Reg16) (v : Word) :
    (s.setReg16 r v).pc = if r = .pc then v else s.pc := by
  cases r <;> simp [State.pc]

/-- F lies in AF only. -/
theorem f_setReg16 (s : State) {r : Reg16} (hr : r ≠ .af) (v : Word) : (s.setReg16 r v).reg8 .f = s.reg8 .f := by
  rw [reg8_setReg16]
  cases r <;> first | exact absurd rfl hr | rfl

@[simp] theorem f_setReg16_pc (s : State) (v : Word) : (s.setReg16 .pc v).reg8 .f = s.reg8 .f :=
  f_setReg16 s (by decide) v

@[simp] theorem f_setReg16_sp (s : State) (v : Word) : (s.setReg16 .sp v).reg8 .f = s.reg8 .f :=
  f_setReg16 s (by decide) v

@[simp] theorem pc_jump (s : State) (v : Word) : (s.jump v).pc = v := by simp [State.jump]

/-- Writing back what a view holds changes nothing (LD r,r with r = r'). -/
@[simp] theorem setReg8_reg8 (s : State) (r : Reg8) : s.setReg8 r (s.reg8 r) = s := by
  refine state_ext (fun i => ?_) rfl rfl rfl
  simp only [rfByte_setReg8]
  split
  · next h => subst h; rfl
  · rfl

end Machine

end Sys2Proof
end

