-- ==== Sys2Proof/Laws/Memory.lean ====
section
/-! SUPPORT. The byte list, its canonical form, and what each memory primitive answers. -/

namespace Sys2Proof.Machine

/-! ## The byte list -/

theorem Memory.read_erase (m : Memory) (a b : Nat) :
    Memory.read (Memory.erase a m) b = if b = a then Memory.unlisted b else Memory.read m b := by
  induction m with
  | nil => simp [Memory.erase, Memory.read]
  | cons c rest ih =>
    obtain ⟨k, v⟩ := c
    simp only [Memory.erase, Memory.read]
    split <;> split <;> simp_all [Memory.read]

theorem Memory.read_insert (m : Memory) (a b : Nat) (v : Byte) (h : ∀ c ∈ m, c.1 ≠ a) :
    Memory.read (Memory.insert a v m) b = if b = a then v else Memory.read m b := by
  induction m with
  | nil => simp [Memory.insert, Memory.read]
  | cons c rest ih =>
    obtain ⟨k, w⟩ := c
    have hk : k ≠ a := h (k, w) (by simp)
    have ih := ih fun c hc => h c (by simp [hc])
    simp only [Memory.insert]
    split
    · simp [Memory.read]
    · simp only [Memory.read, ih]
      by_cases hbk : b = k
      · simp [hbk, hk]
      · simp [hbk]

theorem Memory.mem_erase {m : Memory} {a : Nat} {c : Host.Cell} (h : c ∈ Memory.erase a m) : c ∈ m ∧ c.1 ≠ a := by
  induction m with
  | nil => simp [Memory.erase] at h
  | cons d rest ih =>
    obtain ⟨k, w⟩ := d
    simp only [Memory.erase] at h
    split at h
    · exact ⟨List.mem_cons_of_mem _ (ih h).1, (ih h).2⟩
    · next hne =>
      rcases List.mem_cons.1 h with rfl | h
      · exact ⟨List.mem_cons_self, fun e => hne e.symm⟩
      · exact ⟨List.mem_cons_of_mem _ (ih h).1, (ih h).2⟩

/-- A byte read after a byte write, at the same address and at any other. -/
@[simp] theorem Memory.read_write (m : Memory) (a b : Nat) (v : Byte) :
    (m.write a v).read b = if b = a then v else m.read b := by
  unfold Memory.write
  split
  · next h =>
    rw [Memory.read_erase]
    split
    · next hb => rw [hb, h]
    · rfl
  · rw [Memory.read_insert _ _ _ _ fun c hc => (Memory.mem_erase hc).2, Memory.read_erase]
    split <;> rfl

/-! ## The canonical form -/

theorem Memory.rising_erase {m : Memory} (a : Nat) (h : m.Pairwise fun c d => c.1 < d.1) :
    (Memory.erase a m).Pairwise fun c d => c.1 < d.1 := by
  induction m with
  | nil => simp [Memory.erase]
  | cons c rest ih =>
    obtain ⟨k, w⟩ := c
    rw [List.pairwise_cons] at h
    simp only [Memory.erase]
    split
    · exact ih h.2
    · exact List.pairwise_cons.2 ⟨fun d hd => h.1 d (Memory.mem_erase hd).1, ih h.2⟩

theorem Memory.mem_insert {m : Memory} {a : Nat} {v : Byte} {c : Host.Cell} (h : c ∈ Memory.insert a v m) :
    c = (a, v) ∨ c ∈ m := by
  induction m with
  | nil => simpa [Memory.insert] using h
  | cons d rest ih =>
    obtain ⟨k, w⟩ := d
    simp only [Memory.insert] at h
    split at h
    · simpa using h
    · rcases List.mem_cons.1 h with rfl | h
      · simp
      · rcases ih h with h | h <;> simp [h]

theorem Memory.rising_insert {m : Memory} (a : Nat) (v : Byte) (h : m.Pairwise fun c d => c.1 < d.1)
    (ha : ∀ c ∈ m, c.1 ≠ a) : (Memory.insert a v m).Pairwise fun c d => c.1 < d.1 := by
  induction m with
  | nil => simp [Memory.insert]
  | cons c rest ih =>
    obtain ⟨k, w⟩ := c
    have hk : k ≠ a := ha (k, w) (by simp)
    have hcons := List.pairwise_cons.1 h
    simp only [Memory.insert]
    split
    · next hlt =>
      refine List.pairwise_cons.2 ⟨fun d hd => ?_, h⟩
      rcases List.mem_cons.1 hd with rfl | hd
      · exact hlt
      · exact Nat.lt_trans hlt (hcons.1 d hd)
    · next hge =>
      refine List.pairwise_cons.2 ⟨fun d hd => ?_, ih hcons.2 fun c hc => ha c (by simp [hc])⟩
      rcases Memory.mem_insert hd with rfl | hd
      · simp only; omega
      · exact hcons.1 d hd

/-- A byte write at a mapped address keeps the canonical form. -/
theorem Memory.wf_write {m : Memory} {a : Nat} (v : Byte) (h : m.wf) (ha : accessible 1 (a : Int) = true) :
    (m.write a v).wf := by
  have hne : ∀ c ∈ Memory.erase a m, c.1 ≠ a := fun c hc => (Memory.mem_erase hc).2
  unfold Memory.write
  split
  · exact ⟨Memory.rising_erase a h.1, fun c hc => h.2 c (Memory.mem_erase hc).1⟩
  · next hv =>
    refine ⟨Memory.rising_insert a v (Memory.rising_erase a h.1) hne, fun c hc => ?_⟩
    rcases Memory.mem_insert hc with rfl | hc
    · exact ⟨hv, ha⟩
    · exact h.2 c (Memory.mem_erase hc).1

/-- In canonical form, memories that read alike at every address are the same list. -/
theorem Memory.ext_of_wf {m m' : Memory} (h : m.wf) (h' : m'.wf) (hr : ∀ a, m.read a = m'.read a) : m = m' := by
  have unlisted_below : ∀ (n : Memory) (a : Nat), (∀ c ∈ n, a < c.1) → n.read a = Memory.unlisted a := by
    intro n a hn
    induction n with
    | nil => rfl
    | cons c rest ih =>
      have : a ≠ c.1 := Nat.ne_of_lt (hn c (by simp))
      simp [Memory.read, this, ih fun c hc => hn c (by simp [hc])]
  induction m generalizing m' with
  | nil =>
    cases m' with
    | nil => rfl
    | cons c rest =>
      have := hr c.1
      simp only [Memory.read, if_true] at this
      exact absurd this.symm (h'.2 c (by simp)).1
  | cons c rest ih =>
    obtain ⟨k, v⟩ := c
    have hc := List.pairwise_cons.1 h.1
    have hv := (h.2 (k, v) (by simp)).1
    cases m' with
    | nil =>
      have := hr k
      simp only [Memory.read, if_true] at this
      exact absurd this hv
    | cons c' rest' =>
      obtain ⟨k', v'⟩ := c'
      have hc' := List.pairwise_cons.1 h'.1
      have hv' := (h'.2 (k', v') (by simp)).1
      have hk : k = k' := by
        rcases Nat.lt_trichotomy k k' with hlt | heq | hgt
        · have := hr k
          rw [unlisted_below ((k', v') :: rest') k fun d hd => by
            rcases List.mem_cons.1 hd with rfl | hd
            · exact hlt
            · exact Nat.lt_trans hlt (hc'.1 d hd)] at this
          simp only [Memory.read, if_true] at this
          exact absurd this hv
        · exact heq
        · have := hr k'
          rw [unlisted_below ((k, v) :: rest) k' fun d hd => by
            rcases List.mem_cons.1 hd with rfl | hd
            · exact hgt
            · exact Nat.lt_trans hgt (hc.1 d hd)] at this
          simp only [Memory.read, if_true] at this
          exact absurd this.symm hv'
      subst hk
      have hvv : v = v' := by simpa [Memory.read] using hr k
      subst hvv
      have : rest = rest' := by
        refine ih ⟨hc.2, fun d hd => h.2 d (by simp [hd])⟩ ⟨hc'.2, fun d hd => h'.2 d (by simp [hd])⟩ fun a => ?_
        by_cases ha : a = k
        · rw [unlisted_below rest a fun d hd => by subst ha; exact hc.1 d hd,
            unlisted_below rest' a fun d hd => by subst ha; exact hc'.1 d hd]
        · simpa [Memory.read, ha] using hr a
      rw [this]

/-! ## The address decoder -/

/-- The mapped addresses, as the five ranges of spec/20_memory.md R71. -/
theorem accessible_one_iff (a : Int) : accessible 1 a = true ↔
    (0 ≤ a ∧ a ≤ 0x7FFF) ∨ (0xC000 ≤ a ∧ a ≤ 0xDFFF) ∨ (0xFF00 ≤ a ∧ a ≤ 0xFF4B) ∨ (0xFF80 ≤ a ∧ a ≤ 0xFFFE) ∨
      a = 0xFFFF := by
  simp only [accessible, Region.all, List.any_cons, List.any_nil, Region.holds, Bool.or_eq_true, Bool.and_eq_true,
    decide_eq_true_eq, Bool.or_false]
  simp only [Region.view]
  omega

/-- The addresses of a 16-bit access that stays in one region (R79). -/
theorem accessible_two_iff (a : Int) : accessible 2 a = true ↔
    (0 ≤ a ∧ a ≤ 0x7FFE) ∨ (0xC000 ≤ a ∧ a ≤ 0xDFFE) ∨ (0xFF00 ≤ a ∧ a ≤ 0xFF4A) ∨ (0xFF80 ≤ a ∧ a ≤ 0xFFFD) := by
  simp only [accessible, Region.all, List.any_cons, List.any_nil, Region.holds, Bool.or_eq_true, Bool.and_eq_true,
    decide_eq_true_eq, Bool.or_false]
  simp only [Region.view]
  omega

theorem accessible_one_of_two {a : Int} (h : accessible 2 a = true) :
    accessible 1 a = true ∧ accessible 1 (a + 1) = true := by
  rw [accessible_two_iff] at h
  rw [accessible_one_iff, accessible_one_iff]
  omega

/-- What `decodeAddr` answers: the region that holds the address and the offset in it, or a memory fault. -/
theorem decodeAddr_cases (a : Int) :
    (∃ r off, decodeAddr a = .ok (r, off) ∧ off < r.view.size ∧ a = ((r.view.base + off : Nat) : Int)) ∨
      (decodeAddr a = .error (.memoryFault a) ∧ accessible 1 a = false) := by
  unfold decodeAddr
  split
  · next r h =>
    have hr := List.find?_some h
    simp only [Region.holds, Bool.and_eq_true, decide_eq_true_eq] at hr
    exact .inl ⟨r, (a - r.view.base).toNat, rfl, by omega, by omega⟩
  · next h =>
    refine .inr ⟨rfl, ?_⟩
    rw [List.find?_eq_none] at h
    simpa [accessible] using h

theorem holds_of_offset (r : Region) {off n : Nat} (h : off + n ≤ r.view.size) :
    r.holds ((r.view.base + off : Nat) : Int) n = true := by
  simp only [Region.holds, Bool.and_eq_true, decide_eq_true_eq]
  omega

theorem accessible_of_offset (r : Region) {off n : Nat} (h : off + n ≤ r.view.size) :
    accessible n ((r.view.base + off : Nat) : Int) = true := by
  refine List.any_eq_true.2 ⟨r, ?_, holds_of_offset r h⟩
  cases r <;> simp [Region.all]

theorem accessible_two_of_offset (r : Region) {off : Nat} (h : off < r.view.size) :
    accessible 2 ((r.view.base + off : Nat) : Int) = decide (off + 1 < r.view.size) := by
  rw [Bool.eq_iff_iff, accessible_two_iff, decide_eq_true_eq]
  cases r <;> simp only [Region.view] at h ⊢ <;> omega

/-! ## The memory primitives: every access succeeds or is a memory fault, never an access violation (R84). -/

theorem memRead8_eq (m : Memory) (a : Int) :
    memRead8 m a = if accessible 1 a then .ok (m.read a.toNat) else .error (.memoryFault a) := by
  unfold memRead8
  rcases decodeAddr_cases a with ⟨r, off, h, hoff, rfl⟩ | ⟨h, ha⟩
  · rw [h, accessible_of_offset r (by omega), Int.toNat_natCast]
    simp [show r.view.mode8 = .readWrite by cases r <;> rfl, Memory.load]
  · rw [h, ha]; rfl

theorem memRead16_eq (m : Memory) (a : Int) :
    memRead16 m a = if accessible 2 a then .ok (wordOf (m.read (a.toNat + 1)) (m.read a.toNat))
      else .error (.memoryFault a) := by
  unfold memRead16
  rcases decodeAddr_cases a with ⟨r, off, h, hoff, rfl⟩ | ⟨h, ha⟩
  · rw [h, accessible_two_of_offset r hoff, Int.toNat_natCast]
    simp only [show r.view.mode16 = .readWrite by cases r <;> rfl, Memory.load]
    by_cases hlt : off + 1 < r.view.size
    · simp [hlt, show ¬r.view.size ≤ off + 1 by omega, Nat.add_assoc]
    · simp [hlt, show r.view.size ≤ off + 1 by omega]
  · have : accessible 2 a ≠ true := fun e => by simp [(accessible_one_of_two e).1] at ha
    rw [h]; simp [this]

theorem memWrite8_eq (m : Memory) (a : Int) (v : Byte) :
    memWrite8 m a v = if accessible 1 a then .ok (m.write a.toNat v) else .error (.memoryFault a) := by
  unfold memWrite8
  rcases decodeAddr_cases a with ⟨r, off, h, hoff, rfl⟩ | ⟨h, ha⟩
  · rw [h, accessible_of_offset r (by omega), Int.toNat_natCast]
    simp [show r.view.mode8 = .readWrite by cases r <;> rfl, Memory.store]
  · rw [h, ha]; rfl

theorem memWrite16_eq (m : Memory) (a : Int) (v : Word) :
    memWrite16 m a v = if accessible 2 a then .ok ((m.write a.toNat (loByte v)).write (a.toNat + 1) (hiByte v))
      else .error (.memoryFault a) := by
  unfold memWrite16
  rcases decodeAddr_cases a with ⟨r, off, h, hoff, rfl⟩ | ⟨h, ha⟩
  · rw [h, accessible_two_of_offset r hoff, Int.toNat_natCast]
    simp only [show r.view.mode16 = .readWrite by cases r <;> rfl, Memory.store]
    by_cases hlt : off + 1 < r.view.size
    · simp [hlt, show ¬r.view.size ≤ off + 1 by omega, Nat.add_assoc]
    · simp [hlt, show r.view.size ≤ off + 1 by omega]
  · have : accessible 2 a ≠ true := fun e => by simp [(accessible_one_of_two e).1] at ha
    rw [h]; simp [this]

/-- A store at an accessible address keeps the canonical form. -/
theorem memWrite8_wf {m m' : Memory} {a : Int} {v : Byte} (h : memWrite8 m a v = .ok m') (hm : m.wf) : m'.wf := by
  rw [memWrite8_eq] at h
  split at h
  · next ha =>
    have h0 := (accessible_one_iff a).1 ha
    cases h
    exact Memory.wf_write v hm (by rwa [Int.toNat_of_nonneg (by omega)])
  · cases h

/-- A 16-bit store keeps the canonical form. -/
theorem memWrite16_wf {m m' : Memory} {a : Int} {v : Word} (h : memWrite16 m a v = .ok m') (hm : m.wf) : m'.wf := by
  rw [memWrite16_eq] at h
  split at h
  · next ha =>
    have h0 := (accessible_two_iff a).1 ha
    have h1 := accessible_one_of_two ha
    cases h
    refine Memory.wf_write _ (Memory.wf_write _ hm ?_) ?_
    · rw [Int.toNat_of_nonneg (by omega)]; exact h1.1
    · rw [Nat.cast_add, Int.toNat_of_nonneg (by omega)]; exact h1.2
  · cases h

end Sys2Proof.Machine
end

