-- ==== Sys2Proof/Laws/Construct.lean ====
section
/-! SUPPORT. What construction leaves in memory. -/

namespace Sys2Proof.Machine

theorem Memory.read_writeBytes (m : Memory) (base : Nat) (bs : List Byte) (a : Nat) :
    (m.writeBytes base bs).read a =
      if h : base ≤ a ∧ a < base + bs.length then bs[a - base]'(by omega) else m.read a := by
  induction bs generalizing m base with
  | nil => simp [Memory.writeBytes, show ¬(base ≤ a ∧ a < base) by omega]
  | cons b rest ih =>
    simp only [Memory.writeBytes, ih, Memory.read_write, List.length_cons]
    by_cases h : a = base
    · subst h
      simp
    · by_cases h' : base + 1 ≤ a ∧ a < base + 1 + rest.length
      · rw [dif_pos h', dif_pos (by omega)]
        simp only [show a - base = a - (base + 1) + 1 by omega, List.getElem_cons_succ]
      · rw [dif_neg h', dif_neg (by omega), if_neg h]

/-- Bytes written inside one region keep the canonical form. -/
theorem Memory.wf_writeBytes {m : Memory} (r : Region) {off : Nat} {bs : List Byte} (h : m.wf)
    (hlen : off + bs.length ≤ r.view.size) : (m.writeBytes (r.view.base + off) bs).wf := by
  induction bs generalizing m off with
  | nil => exact h
  | cons b rest ih =>
    simp only [List.length_cons] at hlen
    exact ih (off := off + 1) (Memory.wf_write b h (accessible_of_offset r (by omega))) (by omega)

theorem initialMemory_wf {image : List Byte} (init : MemInit) (h : image.length ≤ 0x8000) :
    (initialMemory image init).wf := by
  have h0 : Memory.wf [] := by decide
  refine Memory.wf_write _ ?_ (by decide)
  refine Memory.wf_writeBytes .highRam (off := 0) ?_ (by simp [Region.view])
  refine Memory.wf_writeBytes .ioPorts (off := 0) ?_ (by simp [Region.view])
  refine Memory.wf_writeBytes .workingRam (off := 0) ?_ (by simp [Region.view])
  exact Memory.wf_writeBytes .rom (off := 0) h0 (by simpa [Region.view] using h)

theorem construct_error {image : List Byte} (init : MemInit) (ime : Byte) (h : 0x8000 < image.length) :
    construct image init ime = .error (.romTooLarge image.length) := by
  unfold construct
  rw [if_pos h]

theorem construct_ok {image : List Byte} (init : MemInit) (ime : Byte) (h : image.length ≤ 0x8000) :
    construct image init ime = .ok { State.reset with mem := initialMemory image init, ime := ime } := by
  unfold construct
  rw [if_neg (by omega)]

/-- A constructed state is reset's registers and mode, with the given memory and IME. -/
theorem construct_cases {image : List Byte} {init : MemInit} {ime : Byte} {s : State}
    (h : construct image init ime = .ok s) :
    image.length ≤ 0x8000 ∧ s = { State.reset with mem := initialMemory image init, ime := ime } := by
  by_cases hl : image.length ≤ 0x8000
  · rw [construct_ok init ime hl] at h
    exact ⟨hl, by cases h; rfl⟩
  · rw [construct_error init ime (by omega)] at h
    cases h

section initial
variable {image : List Byte} {init : MemInit} {i : Nat}

theorem initialMemory_image (h : i < image.length) (hl : image.length ≤ 0x8000) :
    (initialMemory image init).read i = image[i] := by
  simp only [initialMemory, Region.view, Memory.read_write, Memory.read_writeBytes, Vector.length_toList]
  rw [if_neg (by omega), dif_neg (by omega), dif_neg (by omega), dif_neg (by omega), dif_pos (by omega)]
  simp

theorem initialMemory_padding (h : image.length ≤ i) (h' : i < 0x8000) : (initialMemory image init).read i = 0x00 := by
  simp only [initialMemory, Region.view, Memory.read_write, Memory.read_writeBytes, Vector.length_toList]
  rw [if_neg (by omega), dif_neg (by omega), dif_neg (by omega), dif_neg (by omega), dif_neg (by omega)]
  rfl

theorem initialMemory_workingRam (h : i < 8192) : (initialMemory image init).read (0xC000 + i) = init.workingRam[i] := by
  simp only [initialMemory, Region.view, Memory.read_write, Memory.read_writeBytes, Vector.length_toList]
  rw [if_neg (by omega), dif_neg (by omega), dif_neg (by omega), dif_pos (by omega)]
  simp

theorem initialMemory_ioPorts (h : i < 76) : (initialMemory image init).read (0xFF00 + i) = init.ioPorts[i] := by
  simp only [initialMemory, Region.view, Memory.read_write, Memory.read_writeBytes, Vector.length_toList]
  rw [if_neg (by omega), dif_neg (by omega), dif_pos (by omega)]
  simp

theorem initialMemory_highRam (h : i < 127) : (initialMemory image init).read (0xFF80 + i) = init.highRam[i] := by
  simp only [initialMemory, Region.view, Memory.read_write, Memory.read_writeBytes, Vector.length_toList]
  rw [if_neg (by omega), dif_pos (by omega)]
  simp

theorem initialMemory_interruptEnable : (initialMemory image init).read 0xFFFF = init.interruptEnable := by
  simp [initialMemory, Region.view]

end initial

end Sys2Proof.Machine
end

