-- ==== Sys2Proof/Laws/Decode.lean ====
section
/-! SUPPORT. The table's lookup, and what a row decodes to. -/

namespace Sys2Proof

/-- A row found by `lookup` is a row of the table with that key, and it is admitted. -/
theorem lookup_some {gk : Bool} {key : Word} {row : Row} (h : lookup gk key = some row) :
    row ∈ table ∧ row.descriptor.key = key ∧ (gk = true ∨ row.gk = false) := by
  have h1 := List.mem_of_find?_eq_some h
  have h2 := List.find?_some h
  simpa using And.intro h1 h2

/-- A template's instructions are those its shape of immediate builds. -/
inductive Template.Builds : Template → List Byte → Instr → Prop where
  | op (i : Instr) : Builds (.op i) [] i
  | opI8 (build : Byte → Instr) (b : Byte) : Builds (.opI8 build) [b] (build b)
  | opI16 (build : Word → Instr) (lo hi : Byte) : Builds (.opI16 build) [lo, hi] (build (wordOf hi lo))

/-- `assemble` takes exactly the immediate's bytes. -/
theorem assemble_ok {t : Template} {bs rest : List Byte} {i : Instr} (h : t.assemble bs = .ok (i, rest)) :
    ∃ operands, t.Builds operands i ∧ bs = operands ++ rest := by
  cases t with
  | op j =>
    cases h
    exact ⟨[], .op _, rfl⟩
  | opI8 build =>
    cases bs with
    | nil => cases h
    | cons b bs => cases h; exact ⟨[b], .opI8 _ _, rfl⟩
  | opI16 build =>
    match bs, h with
    | lo :: hi :: bs, h => cases h; exact ⟨[lo, hi], .opI16 _ _ _, rfl⟩
    | [], h => cases h
    | [_], h => cases h

/-- The opcode bytes a composite key stands for. -/
inductive OpcodeBytes : List Byte → Word → Prop where
  | primary (b0 : Byte) (h : b0 ≠ cbMarker) : OpcodeBytes [b0] (primaryKey b0)
  | extended (b1 : Byte) : OpcodeBytes [cbMarker, b1] (extendedKey b1)

/-- A decoded instruction is the opcode bytes of an admitted row's key, then the immediate of its template. -/
theorem decode_ok {gk : Bool} {bs rest : List Byte} {i : Instr} (h : decode gk bs = .ok (i, rest)) :
    ∃ opcode key row operands, OpcodeBytes opcode key ∧ lookup gk key = some row ∧ row.template.Builds operands i ∧
      bs = opcode ++ operands ++ rest := by
  have key_ok : ∀ {key : Word} {ops : List Byte}, decodeKey gk key ops = .ok (i, rest) →
      ∃ row operands, lookup gk key = some row ∧ row.template.Builds operands i ∧ ops = operands ++ rest := by
    intro key ops h
    unfold decodeKey at h
    split at h
    · cases h
    · next row hrow =>
      obtain ⟨operands, hb, hops⟩ := assemble_ok h
      exact ⟨row, operands, hrow, hb, hops⟩
  match bs with
  | [] => cases h
  | b0 :: bs =>
    simp only [decode] at h
    split at h
    · next hb =>
      subst hb
      match bs with
      | [] => cases h
      | b1 :: bs =>
        obtain ⟨row, operands, hrow, hb, rfl⟩ := key_ok h
        exact ⟨_, _, row, operands, .extended b1, hrow, hb, by simp⟩
    · next hb =>
      obtain ⟨row, operands, hrow, hbs, rfl⟩ := key_ok h
      exact ⟨_, _, row, operands, .primary b0 hb, hrow, hbs, by simp⟩

/-- The bytes of an admitted row's instruction decode to it, whatever follows them. -/
theorem decode_of_row {gk : Bool} {opcode operands : List Byte} {key : Word} {row : Row} {i : Instr}
    (ho : OpcodeBytes opcode key) (hl : lookup gk key = some row) (hb : row.template.Builds operands i)
    (rest : List Byte) : decode gk (opcode ++ operands ++ rest) = .ok (i, rest) := by
  have hk : decodeKey gk key (operands ++ rest) = .ok (i, rest) := by
    unfold decodeKey
    rw [hl]
    change row.template.assemble _ = _
    generalize row.template = t at hb
    cases hb <;> rfl
  cases ho with
  | primary b0 h =>
    rw [← hk]
    exact if_neg h
  | extended b1 =>
    rw [← hk]
    rfl

/-- Each row's shapes say how many immediate bytes its template takes. -/
theorem builds_length {row : Row} (h : row ∈ table) {operands : List Byte} {i : Instr}
    (hb : row.template.Builds operands i) :
    operands.length = row.descriptor.operand1.bytes + row.descriptor.operand2.bytes := by
  have arity : ∀ r ∈ table, (match r.template with | .op _ => 0 | .opI8 _ => 1 | .opI16 _ => 2) =
      r.descriptor.operand1.bytes + r.descriptor.operand2.bytes := by decide
  rw [← arity row h]
  generalize row.template = t at hb
  cases hb <;> rfl

end Sys2Proof
end

