-- ==== Sys2Proof/Laws/Flags.lean ====
section
/-! SUPPORT. `set_flag` bit by bit, and what the three flag results hold. -/

namespace Sys2Proof.Machine

theorem flag_bit_lt (flag : Flag) : flag.bit < 8 := by cases flag <;> decide

theorem flag_bit_injective {x y : Flag} (h : x.bit = y.bit) : x = y := by
  cases x <;> cases y <;> first | rfl | exact absurd h (by decide)

/-- `set_flag` writes exactly one bit (spec/10_state.md R37). -/
theorem getLsbD_setFlag (f : Byte) (flag : Flag) (b : Bool) (k : Nat) (hk : k < 8) :
    (setFlag f flag b).getLsbD k = if k = flag.bit then b else f.getLsbD k := by
  have h : ∀ (f : Byte) (k : Fin 8), (setFlag f flag b).getLsbD k.val = if k.val = flag.bit then b else f.getLsbD k.val := by
    intro f k
    cases flag <;> cases b <;> fin_cases k <;> simp [setFlag, Flag.bit]
  exact h f ⟨k, hk⟩

@[simp] theorem getFlag_setFlag (f : Byte) (x y : Flag) (b : Bool) :
    getFlag (setFlag f x b) y = if y = x then b else getFlag f y := by
  rw [getFlag, getLsbD_setFlag _ _ _ _ (flag_bit_lt y), getFlag]
  by_cases h : y = x
  · simp [h]
  · rw [if_neg h, if_neg fun e => h (flag_bit_injective e)]

/-- `set_flag` leaves the low nibble untouched (R37, R39). -/
@[simp] theorem setFlag_lowNibble (f : Byte) (flag : Flag) (b : Bool) : setFlag f flag b &&& 0x0F#8 = f &&& 0x0F#8 := by
  apply BitVec.eq_of_getLsbD_eq
  intro k hk
  rw [BitVec.getLsbD_and, BitVec.getLsbD_and, getLsbD_setFlag _ _ _ _ hk]
  split
  · next h => cases flag <;> subst h <;> simp [Flag.bit]
  · rfl

theorem flagsAfterXor_eq : flagsAfterXor = 0x10 := by decide

@[simp] theorem flagsAfterAnd_lowNibble (f res : Byte) : flagsAfterAnd f res &&& 0x0F#8 = f &&& 0x0F#8 := by
  simp [flagsAfterAnd]

@[simp] theorem flagsAfterCp_lowNibble (f a d8 : Byte) (nhc : Bool × Bool × Bool) :
    flagsAfterCp f a d8 nhc &&& 0x0F#8 = f &&& 0x0F#8 := by
  simp [flagsAfterCp]

@[simp] theorem flag_setReg8_f (s : State) (v : Byte) (x : Flag) : (s.setReg8 .f v).flag x = getFlag v x := by
  simp [State.flag]

end Sys2Proof.Machine
end

