-- ==== Sys2Proof/Laws/Ops.lean ====
section
/-! SUPPORT. What each shared operation answers, and what every instruction can do (`exec_cases`). -/

namespace Sys2Proof.Machine

@[simp] theorem orFault_ok {α : Type} (s : State) (go : α → Result) (a : α) : orFault s go (.ok a) = go a := rfl

@[simp] theorem orFault_error {α : Type} (s : State) (go : α → Result) (f : Fault) :
    orFault s go (.error f) = .next (s.enterFaulted f) := rfl

@[simp] theorem commit_ok (s t : State) : commit s (.ok t) = .next t := rfl

@[simp] theorem commit_error (s : State) (f : Fault) : commit s (.error f) = .next (s.enterFaulted f) := rfl

/-- In range, `advance` writes the exact sum to PC. -/
theorem advance_ok {s : State} {k : Int} (h : 0 ≤ (s.pc.toNat : Int) + k ∧ (s.pc.toNat : Int) + k ≤ 0xFFFF) :
    s.advance k = .ok (s.setReg16 .pc (BitVec.ofInt 16 ((s.pc.toNat : Int) + k))) := by
  simp only [State.advance]
  rw [if_pos h]

/-- Out of range, `advance` is the PcOutOfRange fault with the exact sum. -/
theorem advance_error {s : State} {k : Int} (h : ¬(0 ≤ (s.pc.toNat : Int) + k ∧ (s.pc.toNat : Int) + k ≤ 0xFFFF)) :
    s.advance k = .error (.pcOutOfRange ((s.pc.toNat : Int) + k)) := by
  simp only [State.advance]
  rw [if_neg h]

/-- The value `advance` writes, for a fixed advance in range. -/
theorem ofInt_add_toNat (w : Word) (k : Nat) : BitVec.ofInt 16 ((w.toNat : Int) + k) = w + BitVec.ofNat 16 k := by
  rw [← Nat.cast_add, BitVec.ofInt_natCast]
  apply BitVec.eq_of_toNat_eq
  simp

/-- A fixed advance in range completes, with the sum in PC. -/
theorem commit_advance_ok (s t : State) (k : Nat) (h : t.pc.toNat + k ≤ 0xFFFF) :
    ∃ w : Word, commit s (t.advance k) = .next (t.setReg16 .pc w) ∧ w.toNat = t.pc.toNat + k := by
  refine ⟨_, by rw [advance_ok (by omega), commit_ok], ?_⟩
  rw [BitVec.toNat_ofInt]
  omega

/-- An advance by a signed offset in range completes, with the sum in PC. -/
theorem commit_advance_ok_int (s t : State) (k : Int) (h : 0 ≤ (t.pc.toNat : Int) + k ∧ (t.pc.toNat : Int) + k ≤ 0xFFFF) :
    ∃ w : Word, commit s (t.advance k) = .next (t.setReg16 .pc w) ∧ (w.toNat : Int) = t.pc.toNat + k := by
  refine ⟨_, by rw [advance_ok h, commit_ok], ?_⟩
  rw [BitVec.toNat_ofInt]
  omega

/-- An advance out of range takes PcOutOfRange in the pre-step state. -/
theorem commit_advance_error (s t : State) (k : Int)
    (h : ¬(0 ≤ (t.pc.toNat : Int) + k ∧ (t.pc.toNat : Int) + k ≤ 0xFFFF)) :
    commit s (t.advance k) = .next (s.enterFaulted (.pcOutOfRange ((t.pc.toNat : Int) + k))) := by
  rw [advance_error h, commit_error]

theorem store8_eq (s : State) (a : Int) (v : Byte) :
    s.store8 a v = if accessible 1 a then .ok { s with mem := s.mem.write a.toNat v } else .error (.memoryFault a) := by
  unfold State.store8
  rw [memWrite8_eq]
  split <;> rfl

theorem push_eq (s : State) (v : Word) :
    s.push v = if accessible 2 (s.pushAddress.toNat : Int) then
        .ok (State.setReg16 { s with
            mem := (s.mem.write s.pushAddress.toNat (loByte v)).write (s.pushAddress.toNat + 1) (hiByte v) }
          .sp s.pushAddress)
      else .error (.memoryFault (s.pushAddress.toNat : Int)) := by
  unfold State.push
  rw [memWrite16_eq, Int.toNat_natCast]
  split <;> rfl

theorem pop_eq (s : State) :
    s.pop = if accessible 2 ((s.reg16 .sp).toNat : Int) then
        .ok (wordOf (s.mem.read ((s.reg16 .sp).toNat + 1)) (s.mem.read (s.reg16 .sp).toNat),
          s.setReg16 .sp (s.reg16 .sp + 2))
      else .error (.memoryFault ((s.reg16 .sp).toNat : Int)) := by
  unfold State.pop
  rw [memRead16_eq, Int.toNat_natCast]
  split <;> rfl

/-! ## The instructions as the shared operations over which they are defined -/

section exec
variable (s : State) (d8 a8 : Byte) (w : Word) (r8 : Int)

theorem exec_nop : exec .nop s = commit s (s.advance 1) := rfl
theorem exec_ldBcD16 : exec (.ldBcD16 w) s = commit s ((s.setReg16 .bc w).advance 3) := rfl
theorem exec_ldDeD16 : exec (.ldDeD16 w) s = commit s ((s.setReg16 .de w).advance 3) := rfl
theorem exec_ldHlD16 : exec (.ldHlD16 w) s = commit s ((s.setReg16 .hl w).advance 3) := rfl
theorem exec_ldSpD16 : exec (.ldSpD16 w) s = commit s ((s.setReg16 .sp w).advance 3) := rfl
theorem exec_jrR8 : exec (.jrR8 r8) s = commit s (s.advance (2 + r8)) := rfl
theorem exec_jrNzR8 :
    exec (.jrNzR8 r8) s = commit s (s.advance (if s.flag .zero = false then 2 + r8 else 2)) := by
  change commit s (s.advance (if (!s.flag .zero) = true then 2 + r8 else 2)) = _
  by_cases h : s.flag .zero = true
  · rw [if_neg (by simp [h]), if_neg (by simp [h])]
  · rw [if_pos (by simpa using h), if_pos (by simpa using h)]
theorem exec_jrZR8 : exec (.jrZR8 r8) s = commit s (s.advance (if s.flag .zero = true then 2 + r8 else 2)) := rfl
theorem exec_ldIndHlD8 : exec (.ldIndHlD8 d8) s = storeByte (addrHl s) d8 2 s := rfl
theorem exec_ldAD8 : exec (.ldAD8 d8) s = commit s ((s.setReg8 .a d8).advance 2) := rfl
theorem exec_xorAA :
    exec .xorAA s = commit s (((s.setReg8 .a (s.reg8 .a ^^^ s.reg8 .a)).setReg8 .f flagsAfterXor).advance 1) := rfl
theorem exec_jpA16 : exec (.jpA16 w) s = .next (s.jump w) := rfl
theorem exec_ret : exec .ret s = commit s (s.pop.map fun p => p.2.jump p.1) := rfl
theorem exec_callA16 : exec (.callA16 w) s = commit s ((s.push (s.pc + 3)).map fun t => t.jump w) := rfl
theorem exec_ldhIndA8A : exec (.ldhIndA8A a8) s = storeByte (addrA8 a8) (s.reg8 .a) 2 s := rfl
theorem exec_ldIndA16A : exec (.ldIndA16A w) s = storeByte (addrA16 w) (s.reg8 .a) 3 s := rfl
theorem exec_ldhAIndA8 :
    exec (.ldhAIndA8 a8) s = commit s ((memRead8 s.mem (addrA8 a8)).bind fun v => (s.setReg8 .a v).advance 2) := rfl
theorem exec_andD8 : exec (.andD8 d8) s =
    commit s (((s.setReg8 .a (s.reg8 .a &&& d8)).setReg8 .f
      (flagsAfterAnd (s.reg8 .f) (s.reg8 .a &&& d8))).advance 2) := rfl
theorem exec_cpD8 : exec (.cpD8 d8) s =
    commit s ((s.setReg8 .f (flagsAfterCp (s.reg8 .f) (s.reg8 .a) d8 (cpNhc s d8))).advance 2) := rfl
theorem exec_res0A : exec .res0A s = commit s ((s.setReg8 .a (s.reg8 .a &&& 0xFE)).advance 2) := rfl
theorem exec_di : exec .di s = commit s ((s.setIme 0x00).advance 1) := rfl

end exec

/-- A byte store that completes. -/
theorem storeByte_ok (s : State) {a : Int} (v : Byte) (k : Nat) (ha : accessible 1 a = true)
    (h : s.pc.toNat + k ≤ 0xFFFF) :
    ∃ w : Word, storeByte a v k s = .next (State.setReg16 { s with mem := s.mem.write a.toNat v } .pc w) ∧
      w.toNat = s.pc.toNat + k := by
  unfold storeByte
  rw [store8_eq, if_pos ha]
  exact commit_advance_ok s { s with mem := s.mem.write a.toNat v } k h

/-- A byte store at an unmapped address. -/
theorem storeByte_error (s : State) {a : Int} (v : Byte) (k : Int) (ha : accessible 1 a = false) :
    storeByte a v k s = .next (s.enterFaulted (.memoryFault a)) := by
  unfold storeByte
  rw [store8_eq, ha]
  rfl

/-- The high page is added to `a8`. -/
theorem addrA8_eq (a8 : Byte) : addrA8 a8 = 0xFF00 + a8.toNat := by
  have h : ∀ a : Byte, (0xFF00#16 ||| a.setWidth 16).toNat = 0xFF00 + a.toNat := by decide
  unfold addrA8 zext16
  rw [h a8]
  rfl

/-- A memory with one byte written reads elsewhere as before. -/
theorem memRead8_write_ne (m : Memory) {a b : Int} (v : Byte) (ha : 0 ≤ a) (h : b ≠ a) :
    memRead8 (m.write a.toNat v) b = memRead8 m b := by
  rw [memRead8_eq, memRead8_eq]
  split
  · next hb =>
    rw [accessible_one_iff] at hb
    rw [Memory.read_write, if_neg (by omega)]
  · rfl

/-! ## What every instruction can do -/

/-- The faults an instruction's own effect can raise (spec/60_exceptions.md R246, columns DATA and PCR). -/
def EffectFault (f : Fault) : Prop :=
  (∃ a, f = .memoryFault a ∧ accessible 2 a = false) ∨ ∃ n, f = .pcOutOfRange n ∧ (n < 0 ∨ 0xFFFF < n)

/-- What holds between a state and the state a completed instruction leaves. -/
structure Completed (s t : State) : Prop where
  mode : t.mode = s.mode
  memory : s.mem.wf → t.mem.wf
  lowNibble : t.reg8 .f &&& 0x0F#8 = s.reg8 .f &&& 0x0F#8 ∨ t.reg8 .f &&& 0x0F#8 = 0x00#8
  ime : t.ime = s.ime ∨ t.ime = 0x00#8

/-- An effect that completes or raises one of `EffectFault`. -/
inductive Sound (s : State) : Except Fault State → Prop where
  | completes {t : State} (h : Completed s t) : Sound s (.ok t)
  | raises {f : Fault} (h : EffectFault f) : Sound s (.error f)

theorem commit_cases {s : State} {e : Except Fault State} (h : Sound s e) :
    (∃ t, commit s e = .next t ∧ Completed s t) ∨ ∃ f, commit s e = .next (s.enterFaulted f) ∧ EffectFault f := by
  cases h with
  | completes h => exact .inl ⟨_, rfl, h⟩
  | raises h => exact .inr ⟨_, rfl, h⟩

theorem Completed.refl (s : State) : Completed s s := ⟨rfl, id, .inl rfl, .inl rfl⟩

theorem Completed.trans {s t u : State} (h : Completed s t) (h' : Completed t u) : Completed s u where
  mode := h'.mode.trans h.mode
  memory := fun hs => h'.memory (h.memory hs)
  lowNibble := by
    rcases h'.lowNibble with h' | h'
    · rw [h']; exact h.lowNibble
    · exact .inr h'
  ime := by
    rcases h'.ime with h' | h'
    · rw [h']; exact h.ime
    · exact .inr h'

theorem completed_setReg8 (s : State) {r : Reg8} (hr : r ≠ .f) (v : Byte) : Completed s (s.setReg8 r v) where
  mode := rfl
  memory := id
  lowNibble := .inl (by rw [reg8_setReg8, if_neg (Ne.symm hr)])
  ime := .inl rfl

theorem completed_setFlags (s : State) {v : Byte} (hv : v &&& 0x0F#8 = s.reg8 .f &&& 0x0F#8 ∨ v &&& 0x0F#8 = 0x00#8) :
    Completed s (s.setReg8 .f v) where
  mode := rfl
  memory := id
  lowNibble := by simpa using hv
  ime := .inl rfl

theorem completed_setReg16 (s : State) {r : Reg16} (hr : r ≠ .af) (v : Word) : Completed s (s.setReg16 r v) where
  mode := rfl
  memory := id
  lowNibble := .inl (by rw [f_setReg16 s hr])
  ime := .inl rfl

theorem sound_advance {s t : State} (h : Completed s t) (k : Int) : Sound s (t.advance k) := by
  by_cases hk : 0 ≤ (t.pc.toNat : Int) + k ∧ (t.pc.toNat : Int) + k ≤ 0xFFFF
  · rw [advance_ok hk]
    exact .completes (h.trans (completed_setReg16 t (by decide) _))
  · rw [advance_error hk]
    exact .raises (.inr ⟨_, rfl, by omega⟩)

theorem not_accessible_two {a : Int} (h : ¬accessible 1 a = true) : accessible 2 a = false := by
  by_contra h'
  exact h (accessible_one_of_two (by simpa using h')).1

theorem sound_storeByte (s : State) (a : Int) (v : Byte) (k : Int) :
    Sound s ((s.store8 a v).bind fun t => t.advance k) := by
  rw [store8_eq]
  split
  · next ha =>
    simp only [Except.bind]
    refine sound_advance (s := s) (t := { s with mem := s.mem.write a.toNat v }) ⟨rfl, fun hs => ?_, .inl rfl, .inl rfl⟩ k
    exact memWrite8_wf (a := a) (v := v) (by rw [memWrite8_eq, if_pos ha]) hs
  · next ha => exact .raises (.inl ⟨a, rfl, not_accessible_two ha⟩)

theorem bind_ok {α β : Type} (a : α) (k : α → Except Fault β) : (Except.ok a).bind k = k a := rfl

theorem bind_error {α β : Type} (f : Fault) (k : α → Except Fault β) :
    (Except.error f : Except Fault α).bind k = .error f := rfl

theorem sound_load8 (s : State) (a : Int) (k : Int) :
    Sound s ((memRead8 s.mem a).bind fun v => (s.setReg8 .a v).advance k) := by
  by_cases ha : accessible 1 a = true
  · rw [memRead8_eq, if_pos ha, bind_ok]
    exact sound_advance (completed_setReg8 s (by decide) _) k
  · rw [memRead8_eq, if_neg ha, bind_error]
    exact .raises (.inl ⟨a, rfl, not_accessible_two ha⟩)

theorem sound_push_jump (s : State) (v target : Word) : Sound s ((s.push v).map fun t => t.jump target) := by
  rw [push_eq]
  split
  · next ha =>
    refine .completes ⟨rfl, fun hs => ?_, .inl (by simp [State.jump]), .inl rfl⟩
    exact memWrite16_wf (a := (s.pushAddress.toNat : Int)) (v := v)
      (by rw [memWrite16_eq, if_pos ha, Int.toNat_natCast]; rfl) hs
  · next ha => exact .raises (.inl ⟨_, rfl, by simpa using ha⟩)

theorem sound_pop_jump (s : State) : Sound s (s.pop.map fun (target, t) => t.jump target) := by
  rw [pop_eq]
  split
  · exact .completes ⟨rfl, id, .inl (by simp [State.jump]), .inl rfl⟩
  · next ha => exact .raises (.inl ⟨_, rfl, by simpa using ha⟩)

/-- LD r,r' with r not F. -/
theorem loadRegister_cases (s : State) {dst : Reg8} (src : Reg8) (h : dst ≠ .f) :
    (∃ t, loadRegister dst src s = .next t ∧ Completed s t) ∨
      ∃ f, loadRegister dst src s = .next (s.enterFaulted f) ∧ EffectFault f :=
  commit_cases (sound_advance (completed_setReg8 s h _) 1)

/-- LD r16,d16 with r16 not AF. -/
theorem loadPair_cases (s : State) {r : Reg16} (d16 : Word) (h : r ≠ .af) :
    (∃ t, loadPair r d16 s = .next t ∧ Completed s t) ∨
      ∃ f, loadPair r d16 s = .next (s.enterFaulted f) ∧ EffectFault f :=
  commit_cases (sound_advance (completed_setReg16 s h _) 3)

/-- The 49 LD r,r' are one operation. -/
theorem exec_loadRegister {i : Instr} {dst src : Reg8} (s : State) (h : i.ldRegisters = some (dst, src)) :
    exec i s = loadRegister dst src s := by
  cases i <;> simp only [Instr.ldRegisters, Option.some.injEq, Prod.mk.injEq, reduceCtorEq] at h <;>
    obtain ⟨rfl, rfl⟩ := h <;> simp only [exec] <;> rfl

/-- Every instruction either completes or takes a fault of its own effect. -/
theorem exec_cases (i : Instr) (s : State) :
    (∃ t, exec i s = .next t ∧ Completed s t) ∨ ∃ f, exec i s = .next (s.enterFaulted f) ∧ EffectFault f := by
  cases i with
  | nop => unfold exec execNop; exact commit_cases (sound_advance (.refl s) 1)
  | ldBcD16 d => unfold exec execLdBcD16; exact loadPair_cases s d (by decide)
  | ldDeD16 d => unfold exec execLdDeD16; exact loadPair_cases s d (by decide)
  | ldHlD16 d => unfold exec execLdHlD16; exact loadPair_cases s d (by decide)
  | ldSpD16 d => unfold exec execLdSpD16; exact loadPair_cases s d (by decide)
  | jrR8 r => unfold exec execJrR8; exact commit_cases (sound_advance (.refl s) _)
  | jrNzR8 r => unfold exec execJrNzR8; exact commit_cases (sound_advance (.refl s) _)
  | jrZR8 r => unfold exec execJrZR8; exact commit_cases (sound_advance (.refl s) _)
  | ldIndHlD8 d => unfold exec execLdIndHlD8; exact commit_cases (sound_storeByte s _ d 2)
  | ldAD8 d => unfold exec execLdAD8; exact commit_cases (sound_advance (completed_setReg8 s (by decide) d) 2)
  | xorAA =>
    unfold exec execXorAA
    exact commit_cases (sound_advance ((completed_setReg8 s (by decide) _).trans
      (completed_setFlags _ (.inr (by rw [flagsAfterXor_eq]; decide)))) 1)
  | jpA16 a => unfold exec execJpA16; exact commit_cases (.completes (completed_setReg16 s (by decide) a))
  | ret => unfold exec execRet; exact commit_cases (sound_pop_jump s)
  | callA16 a => unfold exec execCallA16; exact commit_cases (sound_push_jump s _ a)
  | ldhIndA8A a => unfold exec execLdhIndA8A; exact commit_cases (sound_storeByte s _ _ 2)
  | andD8 d =>
    unfold exec execAndD8
    exact commit_cases (sound_advance ((completed_setReg8 s (by decide) _).trans
      (completed_setFlags _ (.inl (by simp)))) 2)
  | ldIndA16A a => unfold exec execLdIndA16A; exact commit_cases (sound_storeByte s _ _ 3)
  | ldhAIndA8 a => unfold exec execLdhAIndA8; exact commit_cases (sound_load8 s _ 2)
  | di => unfold exec execDi; exact commit_cases (sound_advance (s := s) (t := s.setIme 0x00) ⟨rfl, id, .inl rfl, .inr rfl⟩ 1)
  | cpD8 d => unfold exec execCpD8; exact commit_cases (sound_advance (completed_setFlags s (.inl (by simp))) 2)
  | res0A => unfold exec execRes0A; exact commit_cases (sound_advance (completed_setReg8 s (by decide) _) 2)
  | _ =>
    rw [exec_loadRegister s rfl]
    exact loadRegister_cases s _ (by decide)

end Sys2Proof.Machine
end

