-- ==== Sys2Proof/Laws/PerInstr.lean ====
section
/-! SUPPORT. Each instruction's opcode bytes name an admitted row of the table, and its operand bytes build it. -/

namespace Sys2Proof.Laws.RowOf

/-- A well-formed instruction has a row: its opcode bytes are the row's key and its operand bytes build it. -/
def Statement (i : Instr) : Prop :=
  ∀ gk : Bool, i.wellFormed gk = true →
    ∃ key row, OpcodeBytes i.opcodeBytes key ∧ lookup gk key = some row ∧ row.template.Builds i.operandBytes i

/-- A form that `P_GK_FORMS` does not gate. -/
theorem of_row {i : Instr} {key : Word} {row : Row} (ho : OpcodeBytes i.opcodeBytes key)
    (hl : lookup false key = some row ∧ lookup true key = some row) (hb : i.operandsInRange = true → row.template.Builds i.operandBytes i) :
    Statement i := fun gk h =>
  ⟨key, row, ho, by cases gk <;> simp [hl], hb (by simp [Instr.wellFormed] at h; exact h.1)⟩

/-- A form that `P_GK_FORMS` gates. -/
theorem of_gk_row {i : Instr} {key : Word} {row : Row} (hg : i.isGkForm = true) (ho : OpcodeBytes i.opcodeBytes key)
    (hl : lookup true key = some row) (hb : row.template.Builds i.operandBytes i) : Statement i := fun gk h =>
  ⟨key, row, ho, by cases gk <;> simp_all [Instr.wellFormed], hb⟩

/-- A two-byte immediate is taken apart and put together. -/
theorem builds_word (build : Word → Instr) (w : Word) : (Template.opI16 build).Builds (immediate16 w) (build w) := by
  simpa [immediate16] using Template.Builds.opI16 build (loByte w) (hiByte w)

/-- A displacement in range is taken apart and put together. -/
theorem builds_displacement (build : Int → Instr) {r8 : Int} (h : displacementInRange r8 = true) :
    (Template.opI8 fun b => build (sext8 b)).Builds [displacementByte r8] (build r8) := by
  simpa [sext8_displacementByte h] using Template.Builds.opI8 (fun b => build (sext8 b)) (displacementByte r8)

theorem nop : Statement .nop := of_row (.primary _ (by decide)) ⟨rfl, rfl⟩ fun _ => .op _
theorem ldBcD16 (d16 : Word) : Statement (.ldBcD16 d16) := of_row (.primary _ (by decide)) ⟨rfl, rfl⟩ fun _ => builds_word _ d16
theorem ldDeD16 (d16 : Word) : Statement (.ldDeD16 d16) := of_row (.primary _ (by decide)) ⟨rfl, rfl⟩ fun _ => builds_word _ d16
theorem ldHlD16 (d16 : Word) : Statement (.ldHlD16 d16) := of_row (.primary _ (by decide)) ⟨rfl, rfl⟩ fun _ => builds_word _ d16
theorem ldSpD16 (d16 : Word) : Statement (.ldSpD16 d16) := of_row (.primary _ (by decide)) ⟨rfl, rfl⟩ fun _ => builds_word _ d16
theorem jrR8 (r8 : Int) : Statement (.jrR8 r8) := of_row (.primary _ (by decide)) ⟨rfl, rfl⟩ (builds_displacement _)
theorem jrNzR8 (r8 : Int) : Statement (.jrNzR8 r8) := of_row (.primary _ (by decide)) ⟨rfl, rfl⟩ (builds_displacement _)
theorem jrZR8 (r8 : Int) : Statement (.jrZR8 r8) := of_row (.primary _ (by decide)) ⟨rfl, rfl⟩ (builds_displacement _)
theorem ldIndHlD8 (d8 : Byte) : Statement (.ldIndHlD8 d8) := of_row (.primary _ (by decide)) ⟨rfl, rfl⟩ fun _ => .opI8 _ d8
theorem ldAD8 (d8 : Byte) : Statement (.ldAD8 d8) := of_gk_row rfl (.primary _ (by decide)) rfl (.opI8 _ d8)
theorem ldBFromB : Statement .ldBFromB := of_gk_row rfl (.primary _ (by decide)) rfl (.op _)
theorem ldBFromC : Statement .ldBFromC := of_gk_row rfl (.primary _ (by decide)) rfl (.op _)
theorem ldBFromD : Statement .ldBFromD := of_gk_row rfl (.primary _ (by decide)) rfl (.op _)
theorem ldBFromE : Statement .ldBFromE := of_gk_row rfl (.primary _ (by decide)) rfl (.op _)
theorem ldBFromH : Statement .ldBFromH := of_gk_row rfl (.primary _ (by decide)) rfl (.op _)
theorem ldBFromL : Statement .ldBFromL := of_gk_row rfl (.primary _ (by decide)) rfl (.op _)
theorem ldBFromA : Statement .ldBFromA := of_gk_row rfl (.primary _ (by decide)) rfl (.op _)
theorem ldCFromB : Statement .ldCFromB := of_gk_row rfl (.primary _ (by decide)) rfl (.op _)
theorem ldCFromC : Statement .ldCFromC := of_gk_row rfl (.primary _ (by decide)) rfl (.op _)
theorem ldCFromD : Statement .ldCFromD := of_gk_row rfl (.primary _ (by decide)) rfl (.op _)
theorem ldCFromE : Statement .ldCFromE := of_gk_row rfl (.primary _ (by decide)) rfl (.op _)
theorem ldCFromH : Statement .ldCFromH := of_gk_row rfl (.primary _ (by decide)) rfl (.op _)
theorem ldCFromL : Statement .ldCFromL := of_gk_row rfl (.primary _ (by decide)) rfl (.op _)
theorem ldCFromA : Statement .ldCFromA := of_gk_row rfl (.primary _ (by decide)) rfl (.op _)
theorem ldDFromB : Statement .ldDFromB := of_gk_row rfl (.primary _ (by decide)) rfl (.op _)
theorem ldDFromC : Statement .ldDFromC := of_gk_row rfl (.primary _ (by decide)) rfl (.op _)
theorem ldDFromD : Statement .ldDFromD := of_gk_row rfl (.primary _ (by decide)) rfl (.op _)
theorem ldDFromE : Statement .ldDFromE := of_gk_row rfl (.primary _ (by decide)) rfl (.op _)
theorem ldDFromH : Statement .ldDFromH := of_gk_row rfl (.primary _ (by decide)) rfl (.op _)
theorem ldDFromL : Statement .ldDFromL := of_gk_row rfl (.primary _ (by decide)) rfl (.op _)
theorem ldDFromA : Statement .ldDFromA := of_gk_row rfl (.primary _ (by decide)) rfl (.op _)
theorem ldEFromB : Statement .ldEFromB := of_gk_row rfl (.primary _ (by decide)) rfl (.op _)
theorem ldEFromC : Statement .ldEFromC := of_gk_row rfl (.primary _ (by decide)) rfl (.op _)
theorem ldEFromD : Statement .ldEFromD := of_gk_row rfl (.primary _ (by decide)) rfl (.op _)
theorem ldEFromE : Statement .ldEFromE := of_gk_row rfl (.primary _ (by decide)) rfl (.op _)
theorem ldEFromH : Statement .ldEFromH := of_gk_row rfl (.primary _ (by decide)) rfl (.op _)
theorem ldEFromL : Statement .ldEFromL := of_gk_row rfl (.primary _ (by decide)) rfl (.op _)
theorem ldEFromA : Statement .ldEFromA := of_gk_row rfl (.primary _ (by decide)) rfl (.op _)
theorem ldHFromB : Statement .ldHFromB := of_gk_row rfl (.primary _ (by decide)) rfl (.op _)
theorem ldHFromC : Statement .ldHFromC := of_gk_row rfl (.primary _ (by decide)) rfl (.op _)
theorem ldHFromD : Statement .ldHFromD := of_gk_row rfl (.primary _ (by decide)) rfl (.op _)
theorem ldHFromE : Statement .ldHFromE := of_gk_row rfl (.primary _ (by decide)) rfl (.op _)
theorem ldHFromH : Statement .ldHFromH := of_gk_row rfl (.primary _ (by decide)) rfl (.op _)
theorem ldHFromL : Statement .ldHFromL := of_gk_row rfl (.primary _ (by decide)) rfl (.op _)
theorem ldHFromA : Statement .ldHFromA := of_gk_row rfl (.primary _ (by decide)) rfl (.op _)
theorem ldLFromB : Statement .ldLFromB := of_gk_row rfl (.primary _ (by decide)) rfl (.op _)
theorem ldLFromC : Statement .ldLFromC := of_gk_row rfl (.primary _ (by decide)) rfl (.op _)
theorem ldLFromD : Statement .ldLFromD := of_gk_row rfl (.primary _ (by decide)) rfl (.op _)
theorem ldLFromE : Statement .ldLFromE := of_gk_row rfl (.primary _ (by decide)) rfl (.op _)
theorem ldLFromH : Statement .ldLFromH := of_gk_row rfl (.primary _ (by decide)) rfl (.op _)
theorem ldLFromL : Statement .ldLFromL := of_gk_row rfl (.primary _ (by decide)) rfl (.op _)
theorem ldLFromA : Statement .ldLFromA := of_gk_row rfl (.primary _ (by decide)) rfl (.op _)
theorem ldAFromB : Statement .ldAFromB := of_gk_row rfl (.primary _ (by decide)) rfl (.op _)
theorem ldAFromC : Statement .ldAFromC := of_gk_row rfl (.primary _ (by decide)) rfl (.op _)
theorem ldAFromD : Statement .ldAFromD := of_gk_row rfl (.primary _ (by decide)) rfl (.op _)
theorem ldAFromE : Statement .ldAFromE := of_gk_row rfl (.primary _ (by decide)) rfl (.op _)
theorem ldAFromH : Statement .ldAFromH := of_gk_row rfl (.primary _ (by decide)) rfl (.op _)
theorem ldAFromL : Statement .ldAFromL := of_gk_row rfl (.primary _ (by decide)) rfl (.op _)
theorem ldAFromA : Statement .ldAFromA := of_gk_row rfl (.primary _ (by decide)) rfl (.op _)
theorem xorAA : Statement .xorAA := of_gk_row rfl (.primary _ (by decide)) rfl (.op _)
theorem jpA16 (a16 : Word) : Statement (.jpA16 a16) := of_row (.primary _ (by decide)) ⟨rfl, rfl⟩ fun _ => builds_word _ a16
theorem ret : Statement .ret := of_row (.primary _ (by decide)) ⟨rfl, rfl⟩ fun _ => .op _
theorem callA16 (a16 : Word) : Statement (.callA16 a16) := of_row (.primary _ (by decide)) ⟨rfl, rfl⟩ fun _ => builds_word _ a16
theorem ldhIndA8A (a8 : Byte) : Statement (.ldhIndA8A a8) := of_row (.primary _ (by decide)) ⟨rfl, rfl⟩ fun _ => .opI8 _ a8
theorem andD8 (d8 : Byte) : Statement (.andD8 d8) := of_row (.primary _ (by decide)) ⟨rfl, rfl⟩ fun _ => .opI8 _ d8
theorem ldIndA16A (a16 : Word) : Statement (.ldIndA16A a16) := of_row (.primary _ (by decide)) ⟨rfl, rfl⟩ fun _ => builds_word _ a16
theorem ldhAIndA8 (a8 : Byte) : Statement (.ldhAIndA8 a8) := of_row (.primary _ (by decide)) ⟨rfl, rfl⟩ fun _ => .opI8 _ a8
theorem di : Statement .di := of_row (.primary _ (by decide)) ⟨rfl, rfl⟩ fun _ => .op _
theorem cpD8 (d8 : Byte) : Statement (.cpD8 d8) := of_row (.primary _ (by decide)) ⟨rfl, rfl⟩ fun _ => .opI8 _ d8
theorem res0A : Statement .res0A := of_row (.extended _) ⟨rfl, rfl⟩ fun _ => .op _

end Sys2Proof.Laws.RowOf
end

