-- ==== Sys2Proof/Laws/Step.lean ====
section
/-! SUPPORT. What a step can do: `stepWith_cases`. -/

namespace Sys2Proof.Machine

theorem stepWith_faulted {gk : Bool} {s : State} {f : Fault} (h : s.mode = .faulted f) : stepWith gk s = .fault f := by
  simp only [stepWith, h]

theorem stepWith_running {gk : Bool} {s : State} (h : s.mode = .running) :
    stepWith gk s = orFault s (fun i => exec i s) (fetch gk s) := by
  simp only [stepWith, h]

theorem memRead8_error {m : Memory} {a : Int} {f : Fault} (h : memRead8 m a = .error f) :
    f = .memoryFault a ∧ accessible 2 a = false := by
  by_cases ha : accessible 1 a = true
  · rw [memRead8_eq, if_pos ha] at h
    cases h
  · rw [memRead8_eq, if_neg ha] at h
    cases h
    exact ⟨rfl, not_accessible_two ha⟩

theorem memRead16_error {m : Memory} {a : Int} {f : Fault} (h : memRead16 m a = .error f) :
    f = .memoryFault a ∧ accessible 2 a = false := by
  by_cases ha : accessible 2 a = true
  · rw [memRead16_eq, if_pos ha] at h
    cases h
  · rw [memRead16_eq, if_neg ha] at h
    cases h
    exact ⟨rfl, by simpa using ha⟩

theorem fetchKey_error {s : State} {f : Fault} (h : fetchKey s = .error f) :
    ∃ a, f = .memoryFault a ∧ accessible 2 a = false := by
  unfold fetchKey at h
  cases hb : memRead8 s.mem s.pc.toNat with
  | error g => rw [hb, bind_error] at h; cases h; exact ⟨_, memRead8_error hb⟩
  | ok b0 =>
    rw [hb, bind_ok] at h
    split at h
    · cases hb1 : memRead8 s.mem ((s.pc.toNat : Int) + 1) with
      | error g => rw [hb1] at h; cases h; exact ⟨_, memRead8_error hb1⟩
      | ok b1 => rw [hb1] at h; cases h
    · cases h

theorem fetchOperand_error {m : Memory} {a : Int} {t : Template} {f : Fault} (h : fetchOperand m a t = .error f) :
    f = .memoryFault a ∧ accessible 2 a = false := by
  cases t with
  | op i => cases h
  | opI8 build =>
    unfold fetchOperand at h
    cases hb : memRead8 m a with
    | error g => rw [hb] at h; cases h; exact memRead8_error hb
    | ok b => rw [hb] at h; cases h
  | opI16 build =>
    unfold fetchOperand at h
    cases hb : memRead16 m a with
    | error g => rw [hb] at h; cases h; exact memRead16_error hb
    | ok b => rw [hb] at h; cases h

theorem lookupRow_cases (gk : Bool) (address key : Word) :
    (∃ row, lookup gk key = some row ∧ lookupRow gk address key = .ok row) ∨
      (lookup gk key = none ∧ lookupRow gk address key = .error (.unknownOpcode address key)) := by
  unfold lookupRow
  cases lookup gk key with
  | none => exact .inr ⟨rfl, rfl⟩
  | some row => exact .inl ⟨row, rfl, rfl⟩

/-- What a fetch can fail with (spec/40_step_engine.md R141 to R144). -/
theorem fetch_error {gk : Bool} {s : State} {f : Fault} (h : fetch gk s = .error f) :
    (∃ a, f = .memoryFault a ∧ accessible 2 a = false) ∨
      ∃ key, f = .unknownOpcode s.pc key ∧ lookup gk key = none ∧ ∃ n, fetchKey s = .ok (key, n) := by
  unfold fetch at h
  cases hk : fetchKey s with
  | error g => rw [hk, bind_error] at h; cases h; exact .inl (fetchKey_error hk)
  | ok k =>
    rw [hk, bind_ok] at h
    rcases lookupRow_cases gk s.pc k.1 with ⟨row, -, hr⟩ | ⟨hn, hr⟩
    · rw [hr, bind_ok] at h
      exact .inl ⟨_, fetchOperand_error h⟩
    · rw [hr, bind_error] at h
      cases h
      exact .inr ⟨k.1, rfl, hn, k.2, rfl⟩

/-- A fetched instruction: the key at PC has an admitted row, and its template's operand read gave the instruction. -/
theorem fetch_ok {gk : Bool} {s : State} {i : Instr} (h : fetch gk s = .ok i) :
    ∃ key n row, fetchKey s = .ok (key, n) ∧ lookup gk key = some row ∧
      fetchOperand s.mem ((s.pc.toNat : Int) + (n : Nat)) row.template = .ok i := by
  unfold fetch at h
  cases hk : fetchKey s with
  | error g => rw [hk, bind_error] at h; cases h
  | ok k =>
    rw [hk, bind_ok] at h
    rcases lookupRow_cases gk s.pc k.1 with ⟨row, hrow, hr⟩ | ⟨-, hr⟩
    · rw [hr, bind_ok] at h
      exact ⟨k.1, k.2, row, rfl, hrow, h⟩
    · rw [hr, bind_error] at h
      cases h

/-- The fetch from what its parts read. -/
theorem fetch_of_parts {gk : Bool} {s : State} {key : Word} {n : Nat} {row : Row} (hk : fetchKey s = .ok (key, n))
    (hr : lookup gk key = some row) :
    fetch gk s = fetchOperand s.mem ((s.pc.toNat : Int) + n) row.template := by
  unfold fetch lookupRow
  rw [hk, bind_ok, hr, bind_ok]

/-- The fetch of a key with no row. -/
theorem fetch_of_unknown {gk : Bool} {s : State} {key : Word} {n : Nat} (hk : fetchKey s = .ok (key, n))
    (hr : lookup gk key = none) : fetch gk s = .error (.unknownOpcode s.pc key) := by
  unfold fetch lookupRow
  rw [hk, bind_ok, hr, bind_error]

theorem fetch_of_keyFault {gk : Bool} {s : State} {f : Fault} (hk : fetchKey s = .error f) : fetch gk s = .error f := by
  unfold fetch
  rw [hk, bind_error]

theorem fetchKey_primary {s : State} {b0 : Byte} (h : memRead8 s.mem s.pc.toNat = .ok b0) (hb : b0 ≠ cbMarker) :
    fetchKey s = .ok (primaryKey b0, 1) := by
  unfold fetchKey
  rw [h, bind_ok, if_neg hb]

theorem fetchKey_extended {s : State} {b1 : Byte} (h : memRead8 s.mem s.pc.toNat = .ok cbMarker)
    (h1 : memRead8 s.mem ((s.pc.toNat : Int) + 1) = .ok b1) : fetchKey s = .ok (extendedKey b1, 2) := by
  unfold fetchKey
  rw [h, bind_ok, if_pos rfl, h1]
  rfl

/-- Every step from Running is a fault of the fetch, an instruction that completes, or an instruction that takes a fault
of its own effect. -/
theorem stepWith_cases (gk : Bool) {s : State} (h : s.mode = .running) :
    (∃ f, fetch gk s = .error f ∧ stepWith gk s = .next (s.enterFaulted f)) ∨
    (∃ i t, fetch gk s = .ok i ∧ exec i s = .next t ∧ stepWith gk s = .next t ∧ Completed s t) ∨
    ∃ i f, fetch gk s = .ok i ∧ stepWith gk s = .next (s.enterFaulted f) ∧ EffectFault f := by
  rw [stepWith_running h]
  cases hf : fetch gk s with
  | error f => exact .inl ⟨f, rfl, orFault_error s _ f⟩
  | ok i =>
    rw [orFault_ok]
    rcases exec_cases i s with ⟨t, ht, hc⟩ | ⟨f, hx, he⟩
    · exact .inr (.inl ⟨i, t, rfl, ht, ht, hc⟩)
    · exact .inr (.inr ⟨i, f, rfl, hx, he⟩)

end Sys2Proof.Machine
end

