-- ==== Sys2Proof/Tests/Slice0.lean ====
section
/-! SUPPORT. The model's own tests. Expected values are those of spec/95_test_vectors.md (T…, VL…, VA…, VC…, VB…, VM…, VS…)
or of the spec's encodings, and the last section has a witness for the hypotheses of each obligation. -/

namespace Sys2Proof.Tests
open Sys2Proof.Machine

/-- The reset state with PC at `pc` and `bytes` from there. -/
def start (pc : Word) (bytes : List Byte) : State :=
  { State.reset with mem := placeBytes [] pc.toNat bytes }.setReg16 .pc pc

/-- What a step leaves, seen through `f`. -/
def after {α : Type} (s : State) (f : State → α) (gk : Bool := true) : Option α :=
  match stepWith gk s with
  | .next t => some (f t)
  | _ => none

/-- A byte of memory, mapped. -/
def byteAt (a : Nat) (s : State) : Byte := s.mem.read a

/-- The fault taken by a step that leaves the rest of the state as it was. -/
def faultOf (s : State) (gk : Bool := true) : Option Fault :=
  match stepWith gk s with
  | .next t => if { t with mode := .running } = s then t.mode.recorded else none
  | _ => none

/-- The instruction at the front of some bytes. -/
def decoded (bs : List Byte) (gk : Bool := true) : Option Instr := (decode gk bs).toOption.map Prod.fst

/-! ## WellFormed -/

theorem test_displacement_128_is_ill_formed : (Instr.jrR8 128).wellFormed true = false := by decide
theorem test_displacement_m129_is_ill_formed :
    (Instr.jrNzR8 (-129)).wellFormed true = false ∧ (Instr.jrZR8 (-129)).wellFormed true = false := by decide
theorem test_displacement_bounds_are_well_formed :
    (Instr.jrR8 127).wellFormed false = true ∧ (Instr.jrR8 (-128)).wellFormed false = true := by decide
theorem test_gk_form_is_ill_formed_without_gk :
    Instr.ldBFromC.wellFormed false = false ∧ (Instr.ldAD8 0).wellFormed false = false ∧
      Instr.xorAA.wellFormed false = false := by decide

/-! ## Decoding: words written out from the encodings of spec/30_encoding.md -/

theorem test_decode_ldPair :
    decoded [0b00000001, 0x34, 0x12] = some (.ldBcD16 0x1234) ∧ decoded [0b00010001, 0x34, 0x12] = some (.ldDeD16 0x1234) ∧
    decoded [0b00100001, 0x34, 0x12] = some (.ldHlD16 0x1234) ∧ decoded [0b00110001, 0x34, 0x12] = some (.ldSpD16 0x1234) := by
  decide

theorem test_decode_loads :
    decoded [0b00110110, 0x5A] = some (.ldIndHlD8 0x5A) ∧ decoded [0b00111110, 0x5A] = some (.ldAD8 0x5A) ∧
    decoded [0b11101010, 0x34, 0x12] = some (.ldIndA16A 0x1234) ∧ decoded [0b11100000, 0x80] = some (.ldhIndA8A 0x80) ∧
    decoded [0b11110000, 0x80] = some (.ldhAIndA8 0x80) := by decide

theorem test_decode_arithmetic :
    decoded [0b10101111] = some .xorAA ∧ decoded [0b11100110, 0x0F] = some (.andD8 0x0F) ∧
    decoded [0b11111110, 0x0F] = some (.cpD8 0x0F) := by decide

theorem test_decode_control :
    decoded [0b00011000, 0x80] = some (.jrR8 (-128)) ∧ decoded [0b00100000, 0x7F] = some (.jrNzR8 127) ∧
    decoded [0b00101000, 0xFE] = some (.jrZR8 (-2)) ∧ decoded [0b11000011, 0x50, 0x01] = some (.jpA16 0x0150) ∧
    decoded [0b11001101, 0x00, 0x02] = some (.callA16 0x0200) ∧ decoded [0b11001001] = some .ret := by decide

theorem test_decode_bit_and_misc :
    decoded [0b11001011, 0b10000111] = some .res0A ∧ decoded [0b00000000] = some .nop ∧ decoded [0b11110011] = some .di := by
  decide

theorem test_decode_ldB : [0b01000000, 0b01000001, 0b01000010, 0b01000011, 0b01000100, 0b01000101, 0b01000111].map
    (fun b => decoded [b]) = [some .ldBFromB, some .ldBFromC, some .ldBFromD, some .ldBFromE, some .ldBFromH, some .ldBFromL,
      some .ldBFromA] := by decide
theorem test_decode_ldC : [0b01001000, 0b01001001, 0b01001010, 0b01001011, 0b01001100, 0b01001101, 0b01001111].map
    (fun b => decoded [b]) = [some .ldCFromB, some .ldCFromC, some .ldCFromD, some .ldCFromE, some .ldCFromH, some .ldCFromL,
      some .ldCFromA] := by decide
theorem test_decode_ldD : [0b01010000, 0b01010001, 0b01010010, 0b01010011, 0b01010100, 0b01010101, 0b01010111].map
    (fun b => decoded [b]) = [some .ldDFromB, some .ldDFromC, some .ldDFromD, some .ldDFromE, some .ldDFromH, some .ldDFromL,
      some .ldDFromA] := by decide
theorem test_decode_ldE : [0b01011000, 0b01011001, 0b01011010, 0b01011011, 0b01011100, 0b01011101, 0b01011111].map
    (fun b => decoded [b]) = [some .ldEFromB, some .ldEFromC, some .ldEFromD, some .ldEFromE, some .ldEFromH, some .ldEFromL,
      some .ldEFromA] := by decide
theorem test_decode_ldH : [0b01100000, 0b01100001, 0b01100010, 0b01100011, 0b01100100, 0b01100101, 0b01100111].map
    (fun b => decoded [b]) = [some .ldHFromB, some .ldHFromC, some .ldHFromD, some .ldHFromE, some .ldHFromH, some .ldHFromL,
      some .ldHFromA] := by decide
theorem test_decode_ldL : [0b01101000, 0b01101001, 0b01101010, 0b01101011, 0b01101100, 0b01101101, 0b01101111].map
    (fun b => decoded [b]) = [some .ldLFromB, some .ldLFromC, some .ldLFromD, some .ldLFromE, some .ldLFromH, some .ldLFromL,
      some .ldLFromA] := by decide
theorem test_decode_ldA : [0b01111000, 0b01111001, 0b01111010, 0b01111011, 0b01111100, 0b01111101, 0b01111111].map
    (fun b => decoded [b]) = [some .ldAFromB, some .ldAFromC, some .ldAFromD, some .ldAFromE, some .ldAFromH, some .ldAFromL,
      some .ldAFromA] := by decide

/-- Keys with no row: LD r,(HL) and LD (HL),r codes, other conditions, other 0xCB keys, console forms (VL19, VC33, VB4,
VM7, VS1, VS8). -/
theorem test_decode_refuses : [[0x46], [0x70], [0x76], [0x7E], [0x30, 5], [0x38, 5], [0xCB, 0x37], [0xCB, 0x86], [0xCB, 0xC7],
    [0xCB, 0xCB], [0xFB], [0x10, 0], [0xD9], [0x06, 0x12], [0xD3], [0xED], [0x08, 0, 0], [0xE2]].map (fun bs => decoded bs) =
    List.replicate 18 none := by decide
theorem test_decode_truncated : decode true [] = .error .truncated ∧ decode true [0xCB] = .error .truncated ∧
    decode true [0x3E] = .error .truncated ∧ decode true [0xC3, 0x00] = .error .truncated := by decide
theorem test_decode_without_gk : decoded [0x3E, 0x5A] false = none ∧ decoded [0xAF] false = none ∧
    decoded [0x41] false = none ∧ decoded [0xCB, 0x87] false = some .res0A := by decide

/-- Words numbered as spec/opcode_table.json numbers them: the opcode alone, and the 0xCB row with its prefix byte in bits
15..8. -/
theorem test_decodeTableWord : decodeTableWord 8 0x01 = some (.ldBcD16 0) ∧ decodeTableWord 8 0xC9 = some .ret ∧
    decodeTableWord 16 0xCB87 = some .res0A ∧ decodeTableWord 8 0x7F = some .ldAFromA ∧ decodeTableWord 8 0x76 = none := by
  decide
theorem test_withFetchWord : after (State.reset.withFetchWord 16 0xCB87) (fun t => (t.reg8 .a, t.pc)) = some (0x00, 0x0102) ∧
    after (State.reset.withFetchWord 8 0xCD) (fun t => (t.pc, t.reg16 .sp)) = some (0x0000, 0xFFFC) := by decide

/-! ## Steps of the load group -/

theorem test_ldBcD16 : after (start 0x0100 [0x01, 0x34, 0x12]) (fun t => (t.reg8 .b, t.reg8 .c, t.pc, t.reg8 .f)) =
    some (0x12, 0x34, 0x0103, 0xB0) := by decide                                                     -- T6
theorem test_ldDeD16 : after (start 0x0100 [0x11, 0xEF, 0xBE]) (fun t => (t.reg8 .d, t.reg8 .e, t.pc)) =
    some (0xBE, 0xEF, 0x0103) := by decide                                                           -- VL1
theorem test_ldSpD16 : after (start 0x0100 [0x31, 0x00, 0x00]) (fun t => (t.reg16 .sp, t.pc)) = some (0, 0x0103) := by
  decide                                                                                             -- VL2
theorem test_ldHlD16 : after (start 0x0100 [0x21, 0xCD, 0xAB]) (fun t => (t.reg8 .h, t.reg8 .l, t.pc)) =
    some (0xAB, 0xCD, 0x0103) := by decide                                                           -- VL3
theorem test_ldBcD16_at_the_end_of_rom : after (start 0x7FFD [0x01, 0x34, 0x12]) (fun t => (t.reg16 .bc, t.pc, t.mode)) =
    some (0x1234, 0x8000, .running) := by decide                                                     -- VL4
theorem test_ldHlD16_operand_at_the_last_byte : faultOf (start 0x7FFE [0x21, 0x00]) = some (.memoryFault 0x7FFF) := by
  decide                                                                                             -- VL5
theorem test_ldIndHlD8_writes_rom : after (start 0x0100 [0x36, 0x77]) (fun t => (byteAt 0x014D t, t.pc)) =
    some (0x77, 0x0102) := by decide                                                                 -- VL7
theorem test_ldIndHlD8_unmapped : faultOf ((start 0x0100 [0x36, 0x5A]).setReg16 .hl 0x8000) =
    some (.memoryFault 0x8000) := by decide                                                          -- VL8
theorem test_store_is_undone_when_pc_leaves_the_range : faultOf ((start 0xFFFE [0x36, 0x99]).setReg16 .hl 0xC000) =
    some (.pcOutOfRange 0x10000) := by decide                                                        -- VL10
theorem test_store_changes_what_is_fetched :
    (after ((start 0x0100 [0x36, 0x00, 0x76]).setReg16 .hl 0x0102) id).bind (fun t => after t State.pc) =
      some 0x0103 := by decide                                                                       -- VL11
theorem test_ldAD8 : after ((start 0x0100 [0x3E, 0x00]).setReg8 .f 0x00) (fun t => (t.reg8 .a, t.reg8 .f, t.pc)) =
    some (0x00, 0x00, 0x0102) := by decide                                                           -- VL13
theorem test_ldAD8_without_gk : faultOf (start 0x0100 [0x3E, 0x5A]) false = some (.unknownOpcode 0x0100 0x3E) := by
  decide                                                                                             -- VL14
theorem test_ldBFromC : after (start 0x0100 [0x41]) (fun t => (t.reg16 .bc, t.pc)) = some (0x1313, 0x0101) := by
  decide                                                                                             -- VL15
theorem test_ldAFromA : after (start 0x0100 [0x7F]) (fun t => decide (t = (start 0x0100 [0x7F]).setReg16 .pc 0x0101)) =
    some true := by decide                                                                           -- VL17
theorem test_ldBFromC_past_the_top : faultOf (start 0xFFFF [0x41]) = some (.pcOutOfRange 0x10000) := by decide  -- VL20
theorem test_ldIndA16A : after (start 0x0100 [0xEA, 0xFF, 0xFF]) (fun t => (byteAt 0xFFFF t, t.pc)) =
    some (0x01, 0x0103) := by decide                                                                 -- VL22
theorem test_ldIndA16A_unmapped : faultOf (start 0x0100 [0xEA, 0x00, 0xA0]) = some (.memoryFault 0xA000) := by
  decide                                                                                             -- VL23
theorem test_ldhIndA8A : after (start 0x0100 [0xE0, 0x4B]) (fun t => (byteAt 0xFF4B t, t.pc)) = some (0x01, 0x0102) := by
  decide                                                                                             -- VL26
theorem test_ldhIndA8A_unmapped : faultOf (start 0x0100 [0xE0, 0x4C]) = some (.memoryFault 0xFF4C) ∧
    faultOf (start 0x0100 [0xE0, 0x7F]) = some (.memoryFault 0xFF7F) := by decide                    -- VL27
theorem test_ldhAIndA8 : after (start 0xFF80 [0xF0, 0x80]) (fun t => (t.reg8 .a, t.reg8 .f, t.pc)) =
    some (0xF0, 0xB0, 0xFF82) := by decide                                                           -- as VL29
theorem test_ldhAIndA8_unmapped : faultOf (start 0x0100 [0xF0, 0x50]) = some (.memoryFault 0xFF50) := by decide  -- VL31

/-- The register file with a value of its own in each register but F. -/
def distinct (op : Byte) : State :=
  { start 0x0100 [op] with rf := #v[0xB0, 0x77, 0x22, 0x11, 0x44, 0x33, 0x66, 0x55, 0xFE, 0xFF, 0x00, 0x01] }

/-- LD dst,r' in the order B, C, D, E, H, L, A of r' (R173 with the codes of R115). -/
def loaded (dst : Reg8) (ops : List Byte) : List (Option Byte) := ops.map fun op => after (distinct op) fun t => t.reg8 dst

def sources : List (Option Byte) := [some 0x11, some 0x22, some 0x33, some 0x44, some 0x55, some 0x66, some 0x77]

theorem test_ldB_sources : loaded .b [0x40, 0x41, 0x42, 0x43, 0x44, 0x45, 0x47] = sources := by decide
theorem test_ldC_sources : loaded .c [0x48, 0x49, 0x4A, 0x4B, 0x4C, 0x4D, 0x4F] = sources := by decide
theorem test_ldD_sources : loaded .d [0x50, 0x51, 0x52, 0x53, 0x54, 0x55, 0x57] = sources := by decide
theorem test_ldE_sources : loaded .e [0x58, 0x59, 0x5A, 0x5B, 0x5C, 0x5D, 0x5F] = sources := by decide
theorem test_ldH_sources : loaded .h [0x60, 0x61, 0x62, 0x63, 0x64, 0x65, 0x67] = sources := by decide
theorem test_ldL_sources : loaded .l [0x68, 0x69, 0x6A, 0x6B, 0x6C, 0x6D, 0x6F] = sources := by decide
theorem test_ldA_sources : loaded .a [0x78, 0x79, 0x7A, 0x7B, 0x7C, 0x7D, 0x7F] = sources := by decide

/-! ## Steps of the other groups -/

theorem test_xorAA : after (((start 0x0100 [0xAF]).setReg8 .a 0x5A).setReg8 .f 0xFF) (fun t => (t.reg16 .af, t.pc)) =
    some (0x0010, 0x0101) := by decide                                                               -- VA2
theorem test_andD8_zero : after (((start 0x0100 [0xE6, 0x0F]).setReg8 .a 0xF0).setReg8 .f 0x0F)
    (fun t => (t.reg8 .a, t.reg8 .f, t.pc)) = some (0x00, 0x3F, 0x0102) := by decide                 -- VA6
theorem test_andD8_nonzero : after (((start 0x0100 [0xE6, 0x81]).setReg8 .a 0xC3).setReg8 .f 0xD0)
    (fun t => (t.reg8 .a, t.reg8 .f)) = some (0x81, 0x20) := by decide                               -- VA9

/-- CP d8 whatever `P_CP_NHC` answers: A kept, Zero written both ways (VA10, VA11). -/
theorem test_cpD8 : (after ((start 0x0100 [0xFE, 0x01]).setReg8 .f 0x00) fun t => (t.reg8 .a, t.flag .zero, t.pc)) =
      some (0x01, true, 0x0102) ∧
    (after (start 0x0100 [0xFE, 0x02]) fun t => (t.reg8 .a, t.flag .zero, t.pc)) = some (0x01, false, 0x0102) := by
  have zero : ∀ (f : Byte) (b : Bool) (nhc : Bool × Bool × Bool), getFlag (setFlag (setFlag (setFlag (setFlag f .zero b)
      .subtraction nhc.1) .halfCarry nhc.2.1) .carry nhc.2.2) .zero = b := by simp
  constructor <;> refine congrArg some (Prod.ext (by decide) (Prod.ext ?_ (by decide)))
  · exact zero _ _ _
  · exact zero _ _ _
theorem test_cpD8_past_the_top : faultOf (start 0xFFFE [0xFE, 0x01]) = some (.pcOutOfRange 0x10000) := by decide  -- VA14

theorem test_jrR8_back : after (start 0x0150 [0x18, 0x80]) State.pc = some 0x00D2 := by decide       -- VC3
theorem test_jrR8_below_zero : faultOf (start 0x0000 [0x18, 0xFD]) = some (.pcOutOfRange (-1)) := by decide  -- VC6
theorem test_jrNzR8 : after (start 0x0100 [0x20, 0x05]) State.pc = some 0x0102 ∧
    after ((start 0x0100 [0x20, 0x05]).setReg8 .f 0x00) State.pc = some 0x0107 := by decide          -- VC10, VC12
theorem test_jrNzR8_not_taken_past_the_top : faultOf (start 0xFFFE [0x20, 0x05]) = some (.pcOutOfRange 0x10000) := by
  decide                                                                                             -- VC14
theorem test_jrZR8_taken : after (start 0x0100 [0x28, 0xFE]) State.pc = some 0x0100 := by decide     -- T7, VC9
theorem test_jrZR8_reads_only_bit_4 : after ((start 0x0100 [0x28, 0x05]).setReg8 .f 0xEF) State.pc = some 0x0102 := by
  decide                                                                                             -- VC13
theorem test_jpA16 : after (start 0x0100 [0xC3, 0x00, 0x80]) (fun t => (t.pc, t.mode)) = some (0x8000, .running) := by
  decide                                                                                             -- VC17
theorem test_jpA16_operand_at_the_last_byte : faultOf (start 0x7FFE [0xC3, 0x00]) = some (.memoryFault 0x7FFF) := by
  decide                                                                                             -- VC19
theorem test_callA16 : after (start 0x0100 [0xCD, 0x00, 0x02])
    (fun t => (t.reg16 .sp, byteAt 0xFFFC t, byteAt 0xFFFD t, t.pc)) = some (0xFFFC, 0x03, 0x01, 0x0200) := by decide  -- VC20
theorem test_callA16_sp_wraps : faultOf ((start 0x0100 [0xCD, 0x00, 0x02]).setReg16 .sp 0x0000) =
    some (.memoryFault 0xFFFE) := by decide                                                          -- VC23
theorem test_ret : after ({ start 0x0200 [0xC9] with mem := [(0x0200, 0xC9), (0xFFFD, 0x34), (0xFFFE, 0x12)] }.setReg16
    .sp 0xFFFD) (fun t => (t.pc, t.reg16 .sp)) = some (0x1234, 0xFFFF) := by decide                  -- VC30
theorem test_ret_from_the_initial_stack : faultOf (start 0x0100 [0xC9]) = some (.memoryFault 0xFFFE) := by decide  -- VC29
theorem test_res0A : after ((start 0x0100 [0xCB, 0x87]).setReg16 .af 0xFF00) (fun t => (t.reg16 .af, t.pc)) =
    some (0xFE00, 0x0102) := by decide                                                               -- VB3
theorem test_res0A_prefix_at_the_end_of_rom : faultOf (start 0x7FFF [0xCB]) = some (.memoryFault 0x8000) := by decide  -- VB7
theorem test_nop : after (start 0x0100 [0x00]) (fun t => decide (t = (start 0x0100 [0x00]).setReg16 .pc 0x0101)) =
    some true := by decide                                                                           -- T5
theorem test_nop_past_the_top : faultOf (start 0xFFFF [0x00]) = some (.pcOutOfRange 0x10000) := by decide  -- VM2
theorem test_di : after { start 0x0100 [0xF3] with ime := 0x01 } (fun t => (t.ime, t.pc)) = some (0x00, 0x0101) := by
  decide                                                                                             -- VM4
theorem test_di_past_the_top : faultOf { start 0xFFFF [0xF3] with ime := 0x01 } = some (.pcOutOfRange 0x10000) := by
  decide                                                                                             -- VM6

/-! ## The step engine -/

theorem test_fetch_unmapped : [0x8000, 0xA123, 0xBFFF, 0xE000, 0xFEFF, 0xFF4C, 0xFF7F].map (fun pc => faultOf (start pc [])) =
    [0x8000, 0xA123, 0xBFFF, 0xE000, 0xFEFF, 0xFF4C, 0xFF7F].map (fun a => some (.memoryFault a)) := by decide  -- T9
theorem test_unknown_opcode : faultOf (start 0x0100 [0x06, 0x12]) = some (.unknownOpcode 0x0100 0x06) ∧
    faultOf (start 0x0100 [0xCB, 0x37]) = some (.unknownOpcode 0x0100 0x137) ∧
    faultOf (start 0xFFFF [0x06]) = some (.unknownOpcode 0xFFFF 0x06) := by decide                   -- VS1, VB4, VS3
theorem test_operand_fault_comes_before_the_pc_check : faultOf (start 0xFFFF [0x3E]) = some (.memoryFault 0x10000) ∧
    faultOf (start 0xFFFF [0xCB]) = some (.memoryFault 0x10000) := by decide                         -- VS4, VB5
theorem test_second_step_repeats_the_fault :
    (hostStep true (hostStep true (start 0x0100 [0x06])).1).2 = some (.unknownOpcode 0x0100 0x06) := by decide  -- VS2

/-! ## Registers, flags, memory, construction -/

theorem test_aliasing : ((State.reset.setReg8 .b 0x12).setReg8 .c 0x34).reg16 .bc = 0x1234 ∧
    (State.reset.setReg16 .sp 0xFF80).rfByte 8 = 0x80 := by decide                                   -- T2
theorem test_set_flag : setFlag (setFlag 0x4F .zero true) .carry true = 0xDF ∧
    setFlag (setFlag 0xB0 .zero true) .carry true = 0xB0 := by decide                                -- T3
theorem test_decode_address : [0x7FFF, 0x8000, 0xDFFF, 0xFF4B, 0xFFFE, 0xFFFF, 0x10000, -1].map (fun a => (decodeAddr a).toOption) =
    [some (.rom, 0x7FFF), none, some (.workingRam, 0x1FFF), some (.ioPorts, 0x4B), some (.highRam, 0x7E),
      some (.interruptEnable, 0), none, none] := by decide                                           -- 2.6
theorem test_word_access : ((memWrite16 [] 0xC000 0xBEEF).bind fun m => (memWrite8 m 0xC001 0x12).bind fun m =>
      memRead16 m 0xC000) = .ok 0x12EF ∧
    memWrite16 [] 0xFFFE 0x1234 = .error (.memoryFault 0xFFFE) := by decide                          -- 2.6, T1
theorem test_push_pop : ((((State.reset.setReg16 .sp 0xFF82).push 0xBEEF).bind State.pop).map fun p => (p.1, p.2.reg16 .sp)) =
    .ok (0xBEEF, 0xFF82) := by decide                                                                -- T4
theorem test_reset_memory_is_canonical : State.reset.mem.wf := by decide
theorem test_writing_the_unlisted_byte_removes_the_cell : Memory.write [(0xC000, 0x5A)] 0xC000 0x00 = [] := by decide
theorem test_fault_codes : [Fault.accessViolation (.register (.byte .a)) .two .read, .memoryFault 0, .unknownOpcode 0 0,
    .pcOutOfRange 0, .romTooLarge 0].map Fault.code = [1, 2, 3, 4, 5] := by decide                   -- R240

/-! ## Witnesses: for each obligation with hypotheses, values that meet them, at the bounds of each clause -/

theorem witness_RegisterPairsAfterConstruction :
    (∃ s, construct [0xF3] MemInit.reference 0x01 = .ok s) ∧ State.reset = State.reset := ⟨⟨_, construct_ok _ _ (by decide)⟩, rfl⟩

theorem witness_RomAfterConstructionIsThePaddedImage :
    (List.replicate 0x8000 (0x5A : Byte)).length ≤ 0x8000 ∧ 0x7FFF < (List.replicate 0x8000 (0x5A : Byte)).length ∧
      ([0x5A] : List Byte).length ≤ 0x8000 ∧ ([0x5A] : List Byte).length ≤ 1 ∧ ([] : List Byte).length ≤ 0x7FFF := by
  simp only [List.length_replicate]
  decide

theorem witness_ConstructionRefusesOversizedImagesAndTakesItsParameters :
    0x8000 < (List.replicate 0x8001 (0 : Byte)).length ∧ (List.replicate 0x8000 (0 : Byte)).length ≤ 0x8000 ∧
      8191 < 8192 ∧ 75 < 76 ∧ 126 < 127 := by
  simp only [List.length_replicate]
  decide

theorem witness_ConstructedStateMeetsTheInvariant : ∃ s, construct [0x76] MemInit.reference 0xFF = .ok s :=
  ⟨_, construct_ok _ _ (by decide)⟩

theorem witness_ByteStoreIsReadBackAndChangesOneByte :
    accessible 1 0 = true ∧ accessible 1 0x7FFF = true ∧ accessible 1 0xFF4B = true ∧ accessible 1 0xFFFF = true ∧
    accessible 1 (-1) = false ∧ accessible 1 0x8000 = false ∧ accessible 1 0xFF7F = false ∧ accessible 1 0x10000 = false := by
  decide

theorem witness_WordStoreIsLittleEndianAndReadBack :
    accessible 2 0x7FFE = true ∧ accessible 2 0xC001 = true ∧ accessible 2 0xFFFD = true := by decide

theorem witness_WordAccessFaultsOutsideOneRegion :
    accessible 2 0x7FFF = false ∧ accessible 2 0xDFFF = false ∧ accessible 2 0xFF4B = false ∧ accessible 2 0xFFFE = false ∧
    accessible 2 0xFFFF = false ∧ accessible 2 (-1) = false ∧ accessible 2 0 = true ∧ accessible 2 0xFF4A = true := by decide

theorem witness_MemoryWritesKeepTheCanonicalForm :
    (∃ m m', Memory.wf m ∧ memWrite8 m 0xC000 0x00 = .ok m') ∧ (∃ m m', Memory.wf m ∧ memWrite16 m 0xFFFD 0x1234 = .ok m') ∧
      ∃ m m' : Memory, m.wf ∧ m'.wf ∧ ∀ a : Int, memRead8 m a = memRead8 m' a :=
  ⟨⟨[(0xC000, 0x5A)], [], by decide, by decide⟩, ⟨[], [(0xFFFD, 0x34), (0xFFFE, 0x12)], by decide, by decide⟩,
    [(0xFFFF, 1)], [(0xFFFF, 1)], by decide, by decide, fun _ => rfl⟩

theorem witness_PushThenPopGivesTheValueBack :
    ([0xFF82, 0xFFFF, 0x0002, 0xE000].map fun sp => accessible 2 ((((State.reset.setReg16 .sp sp).reg16 .sp) - 2).toNat : Int)) =
      [true, true, true, true] ∧
    ([0xFF81, 0x0000, 0x0001, 0xE001].map fun sp => accessible 2 ((((State.reset.setReg16 .sp sp).reg16 .sp) - 2).toNat : Int)) =
      [false, false, false, false] := by
  decide

theorem witness_DecodeOfEncodeIsTheInstruction : (Instr.jrZR8 (-128)).wellFormed false = true ∧
    (Instr.ldAFromL).wellFormed true = true ∧ (Instr.callA16 0xFFFF).wellFormed false = true := by decide

theorem witness_EncodeOfDecodeIsTheBytes : decode true [0x7D, 0x01] = .ok (.ldAFromL, [0x01]) ∧
    decode false [0xC3, 0xFF, 0xFF] = .ok (.jpA16 0xFFFF, []) := by decide

theorem witness_DecodedLengthIsTheDescriptorLength : decode false [0xCB, 0x87, 0x00] = .ok (.res0A, [0x00]) ∧
    decode true [0x28, 0x80] = .ok (.jrZR8 (-128), []) := by decide

theorem witness_LdRegisterOpcodesFollowTheRegisterCodes : Instr.ldAFromB.ldRegisters = some (.a, .b) ∧
    Instr.ldBFromA.ldRegisters = some (.b, .a) := by decide

/-- A word immediate at the top of High RAM, and a prefixed instruction at the end of ROM. -/
theorem witness_StepRunsTheDecodedInstruction :
    ((start 0xFF80 [0xC3, 0x50, 0x01]).mode = .running ∧ decode true [0xC3, 0x50, 0x01] = .ok (.jpA16 0x0150, []) ∧
      (∀ (k : Fin 3), memRead8 (start 0xFF80 [0xC3, 0x50, 0x01]).mem
        (((start 0xFF80 [0xC3, 0x50, 0x01]).pc.toNat : Int) + k.val) = .ok [0xC3, 0x50, 0x01][k]) ∧
      accessible 2 (((start 0xFF80 [0xC3, 0x50, 0x01]).pc.toNat : Int) + 1) = true) ∧
    decode true [0xCB, 0x87, 0x12] = .ok (.res0A, [0x12]) ∧
      ∀ (k : Fin 2), memRead8 (start 0x7FFE [0xCB, 0x87]).mem (((start 0x7FFE [0xCB, 0x87]).pc.toNat : Int) + k.val) =
        .ok [0xCB, 0x87][k] := by decide

theorem witness_FaultedIsTerminal : (State.reset.enterFaulted (.memoryFault 0x8000)).mode = .faulted (.memoryFault 0x8000) := rfl

theorem witness_RunningStepAlwaysAnswersNext : State.reset.mode = .running := rfl

/-- A step that takes a fault: UnknownOpcode, MemoryFault and PcOutOfRange. -/
theorem witness_RaisedFaultLeavesThePreStepState : (start 0x0100 [0x06]).mode = .running ∧
    after (start 0x0100 [0x06]) State.mode = some (.faulted (.unknownOpcode 0x0100 0x06)) ∧
    after (start 0x8000 []) State.mode = some (.faulted (.memoryFault 0x8000)) ∧
    after (start 0xFFFF [0x00]) State.mode = some (.faulted (.pcOutOfRange 0x10000)) := by decide

theorem witness_FetchOfAnUnmappedOpcodeFaults : 
    [0x8000, 0xBFFF, 0xE000, 0xFEFF, 0xFF4C, 0xFF7F].map (fun pc => ((start pc []).mode, (start pc []).pc)) =
      [0x8000, 0xBFFF, 0xE000, 0xFEFF, 0xFF4C, 0xFF7F].map (fun pc => (.running, pc)) := by decide

theorem witness_CbMarkerBeforeAnUnmappedByteFaults : 
    [0x7FFF, 0xDFFF, 0xFF4B, 0xFFFF].map (fun pc => (memRead8 (start pc [0xCB]).mem (start pc [0xCB]).pc.toNat,
      accessible 1 (((start pc [0xCB]).pc.toNat : Int) + 1), (start pc [0xCB]).mode)) =
      List.replicate 4 (.ok 0xCB, false, .running) := by decide

theorem witness_UnadmittedKeyIsUnknownOpcode :
    (memRead8 (start 0xFFFF [0x76]).mem (start 0xFFFF [0x76]).pc.toNat = .ok 0x76 ∧ (lookup true 0x76).isNone = true ∧
      (lookup false 0x41).isNone = true) ∧
    memRead8 (start 0x0100 [0xCB, 0xCB]).mem (start 0x0100 [0xCB, 0xCB]).pc.toNat = .ok 0xCB ∧
      memRead8 (start 0x0100 [0xCB, 0xCB]).mem (((start 0x0100 [0xCB, 0xCB]).pc.toNat : Int) + 1) = .ok 0xCB ∧
      (lookup true (0x100 ||| 0xCB)).isNone = true := by decide

/-- An 8-bit immediate after the last byte of each region, and a 16-bit immediate from a region's last byte. -/
theorem witness_UnreadableOperandFaultsBeforeAnyEffect :
    (memRead8 (start 0x7FFF [0x3E]).mem (start 0x7FFF [0x3E]).pc.toNat = .ok 0x3E ∧
      (lookup true 0x3E).map (fun r => r.descriptor.operand2) = some .imm8 ∧ accessible 1 0x8000 = false) ∧
    memRead8 (start 0xFFFD [0xCD]).mem (start 0xFFFD [0xCD]).pc.toNat = .ok 0xCD ∧
      (lookup true 0xCD).map (fun r => r.descriptor.operand1) = some .imm16 ∧ accessible 2 0xFFFE = false ∧
      accessible 2 0x7FFF = false := by decide

theorem witness_EveryStepKeepsTheInvariant : Safety.Inv true State.reset ∧
    after State.reset State.mode = some .running ∧
    ∃ t, stepWith true (start 0x0100 [0x06]) = .next t ∧ Safety.Inv true (start 0x0100 [0x06]) :=
  ⟨⟨by decide, by decide, fun f h => by cases h⟩, by decide,
    (start 0x0100 [0x06]).enterFaulted (.unknownOpcode 0x0100 0x06),
    by rw [stepWith_running rfl, show fetch true (start 0x0100 [0x06]) = .error (.unknownOpcode 0x0100 0x06) by rfl]; rfl,
    ⟨by decide, by decide, fun f h => by cases h⟩⟩

theorem witness_SafeRunsEndRunningInTheInvariant : Safety.RunsTo true 1 State.reset (State.reset.setReg16 .pc 0x0101) ∧
    Safety.Inv true State.reset := by
  have h : stepWith true State.reset = .next (State.reset.setReg16 .pc 0x0101) := by
    rw [stepWith_running rfl, show fetch true State.reset = .ok .nop by rfl, orFault_ok, exec_nop,
      show State.reset.advance 1 = .ok (State.reset.setReg16 .pc 0x0101) by decide, commit_ok]
  exact ⟨⟨_, rfl, h, rfl, rfl⟩, by decide, by decide, fun f h => by cases h⟩

theorem witness_OnlyDiWritesIme : after { start 0x0100 [0xF3] with ime := 0x01 } (fun t => decide (t.ime ≠ 0x01)) = some true := by
  decide

theorem witness_ImeSteersNothing : (after State.reset State.mode).isSome = true ∧
    (State.reset.enterFaulted (.memoryFault 0)).mode = .faulted (.memoryFault 0) := by decide

theorem witness_UpperFlagsSteerNothing : (0x50 : Byte) &&& 0x1F = State.reset.reg8 .f &&& 0x1F ∧ (0x50 : Byte) ≠ State.reset.reg8 .f ∧
    (after State.reset State.mode).isSome = true := by decide

theorem witness_OnlyTheArithmeticGroupWritesF :
    after (start 0x0100 [0xAF]) (fun t => decide (t.reg8 .f ≠ (start 0x0100 [0xAF]).reg8 .f)) = some true := by decide

theorem witness_WordImmediateFormsAndRetNeverLeaveTheRange : (start 0xFF80 [0xCD, 0x00, 0x02]).mode = .running ∧
    fetch true (start 0xFF80 [0xCD, 0x00, 0x02]) = .ok (.callA16 0x0200) ∧ fetch true (start 0x0100 [0xC9]) = .ok .ret ∧
    (after (start 0xFF80 [0xCD, 0x00, 0x02]) State.mode).isSome = true := by decide

/-- The highest PC of the fixed advances by 1, 2 and 3, as NopOnlyAdvancesPc, LoadAImmediateWritesA,
LoadPairImmediateWritesThePair, LoadRegisterCopiesTheSource, XorAAClearsAAndSetsOnlyZero, AndImmediateResultAndFlags,
CompareImmediateFlags, ResetBitClearsBitZeroOfA and DisableInterruptsClearsIme ask for. -/
theorem witness_fixed_advances : (start 0xFFFE []).pc.toNat + 1 ≤ 0xFFFF ∧ (start 0xFFFD []).pc.toNat + 2 ≤ 0xFFFF ∧
    (start 0xFFFC []).pc.toNat + 3 ≤ 0xFFFF ∧ Instr.ldHFromL.ldRegisters = some (.h, .l) := by decide

theorem witness_StoreImmediateAtHlWritesOneByte : 
    [0x0000, 0xC000, 0xFFFF].map (fun hl => (decide ((State.reset.setReg16 .hl hl).pc.toNat + 2 ≤ 0xFFFF),
      accessible 1 (addrHl (State.reset.setReg16 .hl hl)))) = List.replicate 3 (true, true) := by decide

theorem witness_StoreAWritesOneByte : State.reset.pc.toNat + 3 ≤ 0xFFFF ∧ accessible 1 (addrA16 0xFFFF) = true ∧
    accessible 1 (addrA16 0x7FFF) = true ∧ accessible 1 (addrA8 0x4B) = true ∧ accessible 1 (addrA8 0x80) = true := by decide

theorem witness_LoadAHighPageReadsTheByte : (start 0xFFFD []).pc.toNat + 2 ≤ 0xFFFF ∧
    memRead8 (start 0xFF4B [0x5A]).mem (0xFF00 + (0x4B : Byte).toNat) = .ok 0x5A := by decide

theorem witness_JumpRelativeAddsTheDisplacement : 0 ≤ ((start 0x0000 []).pc.toNat : Int) + 2 + (-2) ∧
    ((start 0xFFFF []).pc.toNat : Int) + 2 + (-2) ≤ 0xFFFF := by decide

/-- Both conditions, taken and not taken, at the ends of the range. -/
theorem witness_JumpRelativeOnZeroBothWays :
    (0 : Int) = (start 0x007E []).pc.toNat + 2 + (if (start 0x007E []).flag .zero = true then -128 else 0) ∧
    (0xFFFF : Int) = (start 0xFFFD []).pc.toNat + 2 + (if (start 0xFFFD []).flag .zero = false then 127 else 0) ∧
    (0xFFFF : Int) = ((start 0xFF7E []).setReg8 .f 0x00).pc.toNat + 2 +
      (if ((start 0xFF7E []).setReg8 .f 0x00).flag .zero = false then 127 else 0) ∧
    (2 : Int) = ((start 0x0000 []).setReg8 .f 0x00).pc.toNat + 2 +
      (if ((start 0x0000 []).setReg8 .f 0x00).flag .zero = true then 127 else 0) := by decide

theorem witness_CallPushesTheReturnAddress : 
    [0x0002, 0xE000, 0xFF82, 0xFFFF].map (fun sp => accessible 2 ((State.reset.setReg16 .sp sp).pushAddress.toNat : Int)) =
      List.replicate 4 true := by decide

theorem witness_ReturnPopsTheTarget :
    memRead16 [(0xFFFD, 0x34), (0xFFFE, 0x12)] (((State.reset.setReg16 .sp 0xFFFD).reg16 .sp).toNat : Int) = .ok 0x1234 := by
  decide

theorem witness_FixedAdvancePastTheTopFaults : 0xFFFF < (start 0xFFFF []).pc.toNat + 1 ∧ 0xFFFF < (start 0xFFFE []).pc.toNat + 2 ∧
    Instr.ldBFromC.ldRegisters.isSome = true ∧ accessible 1 (addrHl ((start 0xFFFE []).setReg16 .hl 0xC000)) = true ∧
    accessible 1 (addrA8 0x80) = true := by decide

theorem witness_UnmappedDataAddressFaults : accessible 1 (addrHl (State.reset.setReg16 .hl 0x8000)) = false ∧
    accessible 1 (addrA16 0xFEFF) = false ∧ 0x4C ≤ (0x4C : Byte).toNat ∧ (0x7F : Byte).toNat ≤ 0x7F := by decide

theorem witness_RelativeJumpOutOfRangeFaults :
    ((-1 : Int) < 0 ∧ (-1 : Int) = (start 0x0000 []).pc.toNat + 2 + (-3)) ∧
    ((0xFFFF : Int) < 0x10000 ∧
      (0x10000 : Int) = (start 0xFFFE []).pc.toNat + 2 + (if (start 0xFFFE []).flag .zero = false then 5 else 0)) ∧
    (-1 : Int) = (start 0x0000 []).pc.toNat + 2 + (if (start 0x0000 []).flag .zero = true then -3 else 0) := by decide

theorem witness_StackAccessOutsideOneRegionFaults :
    ([0xFF81, 0x0000, 0x0001, 0xE001].map fun sp => accessible 2 ((((State.reset.setReg16 .sp sp).reg16 .sp) - 2).toNat : Int)) =
      List.replicate 4 false ∧
    ([0xFFFE, 0xFFFF, 0x7FFF, 0x8000].map fun sp => accessible 2 (((State.reset.setReg16 .sp sp).reg16 .sp).toNat : Int)) =
      List.replicate 4 false := by
  decide

end Sys2Proof.Tests
end

section
/-! PROOFS. The family of spec/00_scope.md: construction at the reference parameters. -/

namespace Sys2Proof.Machine

/-- The reference byte is what an unlisted address reads as, so storing it lists no cell. -/
@[simp] theorem Memory.write_nil_zero (a : Nat) : Memory.write [] a 0 = [] := rfl

@[simp] theorem Memory.writeBytes_no_bytes (m : Memory) (base : Nat) : m.writeBytes base [] = m := rfl

@[simp] theorem Memory.writeBytes_nil_zeros (n base : Nat) :
    Memory.writeBytes [] base (List.replicate n 0) = [] := by
  induction n generalizing base with
  | zero => exact Memory.writeBytes_no_bytes [] base
  | succ n ih =>
    rw [List.replicate_succ, Memory.writeBytes, Memory.write_nil_zero]
    exact ih (base + 1)

/-- With an empty image, `P_MEM_INIT` at its reference value leaves every address unlisted (R8, R54, R55). -/
theorem initialMemory_nil_reference : initialMemory [] MemInit.reference = [] := by
  simp only [initialMemory, MemInit.reference, Vector.toList_replicate, Memory.writeBytes_no_bytes,
    Memory.writeBytes_nil_zeros, Memory.write_nil_zero]

/-- Settles O4: construction changes only the memory and IME of the reset state, and at the reference parameters both
are already what the reset state holds. -/
theorem referenceConstructionIsReset : Obligations.ReferenceConstructionIsReset := by
  unfold Obligations.ReferenceConstructionIsReset
  rw [construct_ok MemInit.reference 0x00 (Nat.zero_le _), initialMemory_nil_reference]
  rfl

end Sys2Proof.Machine
end

section
/-! PROOFS. The family of spec/10_state.md: what every step keeps. -/

namespace Sys2Proof.Machine

/-! ## The invariant -/

/-- Taking a fault keeps the invariant when the fault is true of the pre-step state: only the mode changes. -/
theorem inv_enterFaulted {gk : Bool} {s : State} {f : Fault} (hs : Safety.Inv gk s)
    (hf : Safety.FaultJustified gk s f) : Safety.Inv gk (s.enterFaulted f) where
  memory := hs.memory
  lowNibble := hs.lowNibble
  fault := fun g hg => by
    cases hg
    cases f <;> exact hf

/-- A completed instruction keeps the invariant: it leaves the mode Running. -/
theorem inv_of_completed {gk : Bool} {s t : State} (hs : Safety.Inv gk s) (hr : s.mode = .running)
    (h : Completed s t) : Safety.Inv gk t where
  memory := h.memory hs.memory
  lowNibble := by
    rcases h.lowNibble with h | h
    · rw [h, hs.lowNibble]
    · exact h
  fault := fun f hf => by rw [h.mode, hr] at hf; cases hf

theorem faultJustified_of_effect (gk : Bool) (s : State) {f : Fault} (h : EffectFault f) :
    Safety.FaultJustified gk s f := by
  rcases h with ⟨a, rfl, ha⟩ | ⟨n, rfl, hn⟩
  · exact ha
  · exact hn

theorem faultJustified_of_fetch {gk : Bool} {s : State} {f : Fault} (h : fetch gk s = .error f) :
    Safety.FaultJustified gk s f := by
  rcases fetch_error h with ⟨a, rfl, ha⟩ | ⟨key, rfl, hkey, hfetch⟩
  · exact ha
  · exact ⟨rfl, hkey, hfetch⟩

/-- Settles O32: a step completes, and `Completed` gives the invariant, or it records a fault of the fetch or of the
instruction's effect, and both are justified. -/
theorem everyStepKeepsTheInvariant : Obligations.EveryStepKeepsTheInvariant := by
  intro gk s t hs ht
  cases hm : s.mode with
  | faulted f => rw [stepWith_faulted hm] at ht; cases ht
  | running =>
    rcases stepWith_cases gk hm with ⟨f, hf, h⟩ | ⟨i, u, -, -, h, hc⟩ | ⟨i, f, -, h, he⟩
    · cases h.symm.trans ht
      exact inv_enterFaulted hs (faultJustified_of_fetch hf)
    · cases h.symm.trans ht
      exact inv_of_completed hs hm hc
    · cases h.symm.trans ht
      exact inv_enterFaulted hs (faultJustified_of_effect gk s he)

/-- Reset's registers and mode with any canonical memory and any IME meet the invariant. -/
theorem inv_reset_with (gk : Bool) {m : Memory} (hm : m.wf) (ime : Byte) :
    Safety.Inv gk { State.reset with mem := m, ime := ime } where
  memory := hm
  lowNibble := show State.reset.reg8 .f &&& 0x0F#8 = 0x00#8 by decide
  fault := fun _ hf => by cases hf

/-- Settles O5. -/
theorem constructedStateMeetsTheInvariant : Obligations.ConstructedStateMeetsTheInvariant := by
  intro gk image init ime s h
  obtain ⟨hlen, rfl⟩ := construct_cases h
  exact inv_reset_with gk (initialMemory_wf init hlen) ime

/-- Settles O6: the reset memory is the empty list. -/
theorem resetMeetsTheInvariant : Obligations.ResetMeetsTheInvariant := fun gk =>
  inv_reset_with gk (m := []) (by decide) 0x00

end Sys2Proof.Machine
end

section
/-! PROOFS. The family of spec/10_state.md: IME and the upper flags. One pass over the instructions (`Patch.exec`) says
that an overwrite of a part of the state the instruction neither reads nor writes passes through it. That an instruction
leaves IME or F alone is the case where the overwrite changes nothing; that they steer nothing is the case of any value. -/

namespace Sys2Proof.Machine

/-! ## Outcomes compared -/

/-- Two outcomes of one kind: next states related by `R`, or the same fault, or the same refusal. -/
inductive OutcomeRel (R : State → State → Prop) : Result → Result → Prop where
  | next {t t' : State} (h : R t t') : OutcomeRel R (.next t) (.next t')
  | fault (f : Fault) : OutcomeRel R (.fault f) (.fault f)
  | refused (r : Refusal) : OutcomeRel R (.refused r) (.refused r)

namespace OutcomeRel

variable {R R' : State → State → Prop} {r r' : Result}

theorem of_next (h : OutcomeRel R r r') (t : State) (ht : r = .next t) : ∃ t', r' = .next t' ∧ R t t' := by
  subst ht
  cases h with
  | next h => exact ⟨_, rfl, h⟩

theorem of_fault (h : OutcomeRel R r r') (f : Fault) (hf : r = .fault f) : r' = .fault f := by
  subst hf
  cases h
  rfl

/-- Weaken the relation, knowing that the first state is the outcome's. -/
theorem mono (h : OutcomeRel R r r') (hR : ∀ t t', r = .next t → R t t' → R' t t') : OutcomeRel R' r r' := by
  cases h with
  | next h => exact .next (hR _ _ rfl h)
  | fault f => exact .fault f
  | refused q => exact .refused q

/-- Two commits of one effect, the second followed by `g`. -/
theorem commit_map {s s' : State} {e : Except Fault State} {g : State → State}
    (hf : ∀ f, R (s.enterFaulted f) (s'.enterFaulted f)) (ht : ∀ t, e = .ok t → R t (g t)) :
    OutcomeRel R (commit s e) (commit s' (e.map g)) := by
  cases e with
  | ok t => exact .next (ht t rfl)
  | error f => exact .next (hf f)

/-- Two commits of the same effect, from states that stay related when they take the same fault. -/
theorem commit_same {s s' : State} (e : Except Fault State) (hf : ∀ f, R (s.enterFaulted f) (s'.enterFaulted f))
    (ht : ∀ t, R t t) : OutcomeRel R (commit s e) (commit s' e) := by
  cases e with
  | ok t => exact .next (ht t)
  | error f => exact .next (hf f)

/-- States in the same mode that fetch the same step to related outcomes when every instruction does. -/
theorem stepWith {gk : Bool} {s s' : State} (hm : s'.mode = s.mode) (hfetch : fetch gk s' = fetch gk s)
    (hf : ∀ f, R (s.enterFaulted f) (s'.enterFaulted f)) (hexec : ∀ i, OutcomeRel R (exec i s) (exec i s')) :
    OutcomeRel R (stepWith gk s) (stepWith gk s') := by
  cases hs : s.mode with
  | faulted f => rw [stepWith_faulted hs, stepWith_faulted (hm.trans hs)]; exact .fault f
  | running =>
    rw [stepWith_running hs, stepWith_running (hm.trans hs), hfetch]
    cases fetch gk s with
    | error f => exact .next (hf f)
    | ok i => exact hexec i

end OutcomeRel

/-- A fetch reads PC and memory only (spec/40_step_engine.md R141 to R144). -/
theorem fetch_congr (gk : Bool) {s s' : State} (hpc : s'.pc = s.pc) (hmem : s'.mem = s.mem) :
    fetch gk s' = fetch gk s := by
  simp only [fetch, fetchKey, hpc, hmem]

/-! ## Overwriting what an instruction does not use -/

/-- `g` overwrites a part of the state that lies outside memory, the mode and every register byte but F. -/
structure Patch (g : State → State) : Prop where
  mem : ∀ s, (g s).mem = s.mem
  mode : ∀ s, (g s).mode = s.mode
  reg8 : ∀ s r, r ≠ .f → (g s).reg8 r = s.reg8 r
  reg16 : ∀ s r, r ≠ .af → (g s).reg16 r = s.reg16 r
  setReg8 : ∀ s r v, r ≠ .f → (g s).setReg8 r v = g (s.setReg8 r v)
  setReg16 : ∀ s r w, r ≠ .af → (g s).setReg16 r w = g (s.setReg16 r w)
  setMem : ∀ s m, { g s with mem := m } = g { s with mem := m }
  enterFaulted : ∀ s f, (g s).enterFaulted f = g (s.enterFaulted f)

namespace Patch

variable {g : State → State} (hg : Patch g) (s : State)
include hg

theorem pc : (g s).pc = s.pc := hg.reg16 s .pc (by decide)

theorem fetch (gk : Bool) : fetch gk (g s) = fetch gk s := fetch_congr gk (hg.pc s) (hg.mem s)

theorem jump (w : Word) : (g s).jump w = g (s.jump w) := hg.setReg16 s .pc w (by decide)

theorem advance (k : Int) : (g s).advance k = (s.advance k).map g := by
  by_cases h : 0 ≤ (s.pc.toNat : Int) + k ∧ (s.pc.toNat : Int) + k ≤ 0xFFFF
  · rw [advance_ok h, advance_ok (by rwa [hg.pc]), hg.pc, hg.setReg16 s .pc _ (by decide)]
    rfl
  · rw [advance_error h, advance_error (by rwa [hg.pc]), hg.pc]
    rfl

theorem store8 (a : Int) (v : Byte) : (g s).store8 a v = (s.store8 a v).map g := by
  rw [store8_eq, store8_eq, hg.mem, hg.setMem]
  split <;> rfl

theorem push (v : Word) : (g s).push v = (s.push v).map g := by
  have hsp : (g s).pushAddress = s.pushAddress := by
    unfold State.pushAddress
    rw [hg.reg16 s .sp (by decide)]
  rw [push_eq, push_eq, hsp, hg.mem, hg.setMem, hg.setReg16 _ .sp _ (by decide)]
  split <;> rfl

theorem pop : (g s).pop = s.pop.map fun p => (p.1, g p.2) := by
  rw [pop_eq, pop_eq, hg.reg16 s .sp (by decide), hg.mem, hg.setReg16 s .sp _ (by decide)]
  split <;> rfl

/-- An effect that passes `g` on passes it through the commit, faults included. -/
theorem commit (e : Except Fault State) :
    OutcomeRel (fun t t' => t' = g t) (commit s e) (commit (g s) (e.map g)) :=
  OutcomeRel.commit_map (hg.enterFaulted s) fun _ _ => rfl

theorem commit_advance (t : State) (k : Int) :
    OutcomeRel (fun t t' => t' = g t) (Machine.commit s (t.advance k)) (Machine.commit (g s) ((g t).advance k)) := by
  rw [hg.advance]
  exact hg.commit s _

theorem setReg8_advance {r : Reg8} (hr : r ≠ .f) (v : Byte) (k : Int) :
    OutcomeRel (fun t t' => t' = g t) (Machine.commit s ((s.setReg8 r v).advance k))
      (Machine.commit (g s) (((g s).setReg8 r v).advance k)) := by
  rw [hg.setReg8 s r v hr]
  exact hg.commit_advance s _ k

theorem setReg16_advance {r : Reg16} (hr : r ≠ .af) (w : Word) (k : Int) :
    OutcomeRel (fun t t' => t' = g t) (Machine.commit s ((s.setReg16 r w).advance k))
      (Machine.commit (g s) (((g s).setReg16 r w).advance k)) := by
  rw [hg.setReg16 s r w hr]
  exact hg.commit_advance s _ k

theorem loadRegister {dst src : Reg8} (hd : dst ≠ .f) (hs : src ≠ .f) :
    OutcomeRel (fun t t' => t' = g t) (loadRegister dst src s) (loadRegister dst src (g s)) := by
  unfold Machine.loadRegister
  rw [hg.reg8 s src hs]
  exact hg.setReg8_advance s hd _ 1

theorem storeByte (a : Int) (v : Byte) (k : Int) :
    OutcomeRel (fun t t' => t' = g t) (storeByte a v k s) (storeByte a v k (g s)) := by
  have h : ((g s).store8 a v).bind (fun t => t.advance k) = ((s.store8 a v).bind fun t => t.advance k).map g := by
    rw [hg.store8]
    cases s.store8 a v with
    | ok t => exact hg.advance t k
    | error f => rfl
  unfold Machine.storeByte
  rw [h]
  exact hg.commit s _

theorem load8 (a : Int) (k : Int) :
    OutcomeRel (fun t t' => t' = g t)
      (Machine.commit s ((memRead8 s.mem a).bind fun v => (s.setReg8 .a v).advance k))
      (Machine.commit (g s) ((memRead8 (g s).mem a).bind fun v => ((g s).setReg8 .a v).advance k)) := by
  rw [hg.mem]
  cases memRead8 s.mem a with
  | ok v => exact hg.setReg8_advance s (by decide) v k
  | error f => exact .next (hg.enterFaulted s f)

theorem ret : OutcomeRel (fun t t' => t' = g t) (exec .ret s) (exec .ret (g s)) := by
  rw [exec_ret, exec_ret, hg.pop]
  cases s.pop with
  | ok p => exact .next (hg.jump p.2 p.1)
  | error f => exact .next (hg.enterFaulted s f)

theorem callA16 (w : Word) : OutcomeRel (fun t t' => t' = g t) (exec (.callA16 w) s) (exec (.callA16 w) (g s)) := by
  rw [exec_callA16, exec_callA16, hg.push, hg.pc]
  cases s.push (s.pc + 3) with
  | ok t => exact .next (hg.jump t w)
  | error f => exact .next (hg.enterFaulted s f)

end Patch

/-- The instructions that write F (spec/10_state.md R40). -/
inductive WritesF : Instr → Prop where
  | xorAA : WritesF .xorAA
  | andD8 (d8 : Byte) : WritesF (.andD8 d8)
  | cpD8 (d8 : Byte) : WritesF (.cpD8 d8)

/-- An overwrite that leaves Zero as it is passes through every instruction that writes neither F nor IME. -/
theorem Patch.exec {g : State → State} (hg : Patch g) {s : State} (hz : (g s).flag .zero = s.flag .zero) {i : Instr}
    (hF : ¬WritesF i) (hI : i ≠ .di) : OutcomeRel (fun t t' => t' = g t) (exec i s) (exec i (g s)) := by
  cases i with
  | nop => rw [exec_nop, exec_nop]; exact hg.commit_advance s s 1
  | ldBcD16 w => rw [exec_ldBcD16, exec_ldBcD16]; exact hg.setReg16_advance s (by decide) w 3
  | ldDeD16 w => rw [exec_ldDeD16, exec_ldDeD16]; exact hg.setReg16_advance s (by decide) w 3
  | ldHlD16 w => rw [exec_ldHlD16, exec_ldHlD16]; exact hg.setReg16_advance s (by decide) w 3
  | ldSpD16 w => rw [exec_ldSpD16, exec_ldSpD16]; exact hg.setReg16_advance s (by decide) w 3
  | jrR8 r8 => rw [exec_jrR8, exec_jrR8]; exact hg.commit_advance s s (2 + r8)
  | jrNzR8 r8 => rw [exec_jrNzR8, exec_jrNzR8, hz]; exact hg.commit_advance s s _
  | jrZR8 r8 => rw [exec_jrZR8, exec_jrZR8, hz]; exact hg.commit_advance s s _
  | ldIndHlD8 d8 =>
    rw [exec_ldIndHlD8, exec_ldIndHlD8, addrHl, addrHl, hg.reg16 s .hl (by decide)]
    exact hg.storeByte s _ d8 2
  | ldAD8 d8 => rw [exec_ldAD8, exec_ldAD8]; exact hg.setReg8_advance s (by decide) d8 2
  | xorAA => exact absurd .xorAA hF
  | jpA16 w => rw [exec_jpA16, exec_jpA16]; exact .next (hg.jump s w)
  | ret => exact hg.ret s
  | callA16 w => exact hg.callA16 s w
  | ldhIndA8A a8 =>
    rw [exec_ldhIndA8A, exec_ldhIndA8A, hg.reg8 s .a (by decide)]
    exact hg.storeByte s _ _ 2
  | andD8 d8 => exact absurd (.andD8 d8) hF
  | ldIndA16A w =>
    rw [exec_ldIndA16A, exec_ldIndA16A, hg.reg8 s .a (by decide)]
    exact hg.storeByte s _ _ 3
  | ldhAIndA8 a8 => rw [exec_ldhAIndA8, exec_ldhAIndA8]; exact hg.load8 s _ 2
  | di => exact absurd rfl hI
  | cpD8 d8 => exact absurd (.cpD8 d8) hF
  | res0A =>
    rw [exec_res0A, exec_res0A, hg.reg8 s .a (by decide)]
    exact hg.setReg8_advance s (by decide) _ 2
  | _ =>
    rw [exec_loadRegister s rfl, exec_loadRegister (g s) rfl]
    exact hg.loadRegister s (by decide) (by decide)

/-! ## IME -/

theorem patch_setIme (v : Byte) : Patch (State.setIme · v) where
  mem _ := rfl
  mode _ := rfl
  reg8 _ _ _ := rfl
  reg16 _ _ _ := rfl
  setReg8 _ _ _ _ := rfl
  setReg16 _ _ _ _ := rfl
  setMem _ _ := rfl
  enterFaulted _ _ := rfl

/-- Every instruction but DI passes an overwritten IME on. -/
theorem exec_setIme (s : State) (v : Byte) {i : Instr} (hi : i ≠ .di) :
    OutcomeRel (fun t t' => t' = t.setIme v) (exec i s) (exec i (s.setIme v)) := by
  by_cases hF : WritesF i
  · cases hF with
    | xorAA => rw [exec_xorAA, exec_xorAA]; exact (patch_setIme v).commit_advance s _ 1
    | andD8 d8 => rw [exec_andD8, exec_andD8]; exact (patch_setIme v).commit_advance s _ 2
    | cpD8 d8 => rw [exec_cpD8, exec_cpD8]; exact (patch_setIme v).commit_advance s _ 2
  · exact (patch_setIme v).exec rfl hF hi

/-- Every instruction but DI leaves IME as it was: overwriting it with itself changes nothing. -/
theorem exec_ime {s t : State} {i : Instr} (hi : i ≠ .di) (h : exec i s = .next t) : t.ime = s.ime := by
  have hrel : OutcomeRel _ (exec i s) (exec i s) := exec_setIme s s.ime hi
  obtain ⟨t', ht', rfl⟩ := hrel.of_next t h
  have ht : t = t.setIme s.ime := Host.Outcome.next.inj (h.symm.trans ht')
  rw [ht, setIme_ime]

/-- A step that changes a part of the state a fault leaves alone runs the fetched instruction to its end. -/
theorem fetch_of_step_changes {α : Type} {p : State → α} (hp : ∀ s f, p (s.enterFaulted f) = p s) {gk : Bool}
    {s t : State} (h : stepWith gk s = .next t) (hne : p t ≠ p s) : ∃ i, fetch gk s = .ok i ∧ exec i s = .next t := by
  cases hm : s.mode with
  | faulted f => rw [stepWith_faulted hm] at h; cases h
  | running =>
    rw [stepWith_running hm] at h
    cases hf : fetch gk s with
    | error f =>
      rw [hf, orFault_error] at h
      cases h
      exact absurd (hp s f) hne
    | ok i =>
      rw [hf, orFault_ok] at h
      exact ⟨i, rfl, h⟩

/-- DI leaves 0x00 in IME, or takes a fault and leaves IME as it was. -/
theorem exec_di_ime {s t : State} (h : exec .di s = .next t) : t.ime = s.ime ∨ t.ime = 0x00 := by
  rcases exec_cases .di s with ⟨u, hu, hc⟩ | ⟨f, hf, -⟩
  · cases hu.symm.trans h
    exact hc.ime
  · cases hf.symm.trans h
    exact .inl rfl

/-- Settles O34: every instruction but DI leaves IME alone. -/
theorem onlyDiWritesIme : Obligations.OnlyDiWritesIme := by
  intro gk s t h hne
  obtain ⟨i, hi, hx⟩ := fetch_of_step_changes (p := State.ime) (fun _ _ => rfl) h hne
  by_cases hdi : i = .di
  · subst hdi
    exact ⟨hi, (exec_di_ime hx).resolve_left hne⟩
  · exact absurd (exec_ime hdi hx) hne

/-- Equal but for IME. -/
def EqualButIme (t t' : State) : Prop := t'.setIme 0 = t.setIme 0

theorem equalButIme_setIme (s : State) (v : Byte) : EqualButIme s (s.setIme v) := rfl

theorem exec_equalButIme (s : State) (v : Byte) (i : Instr) :
    OutcomeRel EqualButIme (exec i s) (exec i (s.setIme v)) := by
  by_cases hdi : i = .di
  · subst hdi
    rw [exec_di, exec_di]
    exact .commit_same ((s.setIme 0).advance 1) (fun _ => rfl) fun _ => rfl
  · exact (exec_setIme s v hdi).mono fun t _ _ h => h ▸ equalButIme_setIme t v

/-- Settles O35: DI does the same whatever IME is, and every other instruction passes IME on unread. -/
theorem imeSteersNothing : Obligations.ImeSteersNothing := by
  intro gk s v
  have h : OutcomeRel EqualButIme (stepWith gk s) (stepWith gk (s.setIme v)) :=
    .stepWith ((patch_setIme v).mode s) ((patch_setIme v).fetch s gk) (fun _ => rfl) (exec_equalButIme s v)
  exact ⟨h.of_next, h.of_fault⟩

/-! ## The upper flags -/

/-- The later of two writes of one view stays. -/
@[simp] theorem setReg8_setReg8 (s : State) (r : Reg8) (v w : Byte) : (s.setReg8 r v).setReg8 r w = s.setReg8 r w := by
  refine state_ext (fun j => ?_) rfl rfl rfl
  simp only [rfByte_setReg8]
  split <;> rfl

/-- Writes of two 8-bit views can be made in either order. -/
theorem setReg8_comm (s : State) {r r' : Reg8} (h : r ≠ r') (v w : Byte) :
    (s.setReg8 r v).setReg8 r' w = (s.setReg8 r' w).setReg8 r v := by
  refine state_ext (fun j => ?_) rfl rfl rfl
  simp only [rfByte_setReg8]
  by_cases hj : j = reg8Offset r
  · have : j ≠ reg8Offset r' := fun e => h (reg8Offset_injective (hj.symm.trans e))
    simp [hj, hj ▸ this]
  · simp [hj]

/-- F is a byte of no pair but AF (spec/10_state.md R31). -/
theorem f_outside_pair {r : Reg16} (h : r ≠ .af) :
    reg16HighOffset r ≠ reg8Offset .f ∧ reg16LowOffset r ≠ reg8Offset .f := by
  cases r <;> simp [reg16HighOffset, reg16LowOffset, reg8Offset] at h ⊢

theorem reg16_setF (s : State) {r : Reg16} (h : r ≠ .af) (v : Byte) : (s.setReg8 .f v).reg16 r = s.reg16 r := by
  obtain ⟨hhi, hlo⟩ := f_outside_pair h
  rw [reg16_setReg8, if_neg hhi, if_neg hlo]
  rfl

/-- A write of F and one of any pair but AF can be made in either order. -/
theorem setReg16_setF (s : State) {r : Reg16} (h : r ≠ .af) (v : Byte) (w : Word) :
    (s.setReg8 .f v).setReg16 r w = (s.setReg16 r w).setReg8 .f v := by
  obtain ⟨hhi, hlo⟩ := f_outside_pair h
  refine state_ext (fun j => ?_) rfl rfl rfl
  simp only [rfByte_setReg8, rfByte_setReg16]
  by_cases hj : j = reg8Offset .f
  · rw [if_pos hj, if_neg (hj ▸ hhi.symm), if_neg (hj ▸ hlo.symm), if_pos hj]
  · rw [if_neg hj, if_neg hj]

theorem patch_setF (v : Byte) : Patch (State.setReg8 · .f v) where
  mem _ := rfl
  mode _ := rfl
  reg8 _ _ hr := by rw [reg8_setReg8, if_neg hr]
  reg16 s _ hr := reg16_setF s hr v
  setReg8 s _ w hr := setReg8_comm s hr.symm v w
  setReg16 s _ w hr := setReg16_setF s hr v w
  setMem _ _ := rfl
  enterFaulted _ _ := rfl

/-- An instruction that does not write F passes an overwritten F with the old Zero on. -/
theorem exec_setF {s : State} {v : Byte} (hz : getFlag v .zero = s.flag .zero) {i : Instr} (hi : ¬WritesF i) :
    OutcomeRel (fun t t' => t' = t.setReg8 .f v) (exec i s) (exec i (s.setReg8 .f v)) := by
  by_cases hdi : i = .di
  · subst hdi
    rw [exec_di, exec_di]
    exact (patch_setF v).commit_advance s (s.setIme 0x00) 1
  · exact (patch_setF v).exec (by rw [flag_setReg8_f, hz]) hi hdi

/-- The other instructions leave F as it was: overwriting it with itself changes nothing. -/
theorem exec_f {s t : State} {i : Instr} (hi : ¬WritesF i) (h : exec i s = .next t) : t.reg8 .f = s.reg8 .f := by
  have hrel := exec_setF (s := s) (v := s.reg8 .f) rfl hi
  rw [setReg8_reg8] at hrel
  obtain ⟨t', ht', rfl⟩ := hrel.of_next t h
  have ht : t = t.setReg8 .f (s.reg8 .f) := Host.Outcome.next.inj (h.symm.trans ht')
  rw [ht, reg8_setReg8, if_pos rfl]

/-- Settles O37: every instruction but the three leaves F alone. -/
theorem onlyTheArithmeticGroupWritesF : Obligations.OnlyTheArithmeticGroupWritesF := by
  intro gk s t h hne
  obtain ⟨i, hi, hx⟩ := fetch_of_step_changes (p := (State.reg8 · .f)) (fun _ _ => rfl) h hne
  by_cases hw : WritesF i
  · cases hw with
    | xorAA => exact .inl hi
    | andD8 d8 => exact .inr (.inl ⟨d8, hi⟩)
    | cpD8 d8 => exact .inr (.inr ⟨d8, hi⟩)
  · exact absurd (exec_f hw hx) hne

/-- Bits 4..0 of F are its low nibble and Zero. -/
theorem lowBits_eq (x : Byte) : x &&& 0x1F = (x &&& 0x0F#8) ||| (if getFlag x .zero then 0x10 else 0x00) := by
  revert x
  decide

theorem lowNibble_of_lowBits {x y : Byte} (h : x &&& 0x1F = y &&& 0x1F) : x &&& 0x0F#8 = y &&& 0x0F#8 := by
  have hmask : ∀ z : Byte, z &&& 0x0F#8 = (z &&& 0x1F) &&& 0x0F#8 := fun z => by rw [BitVec.and_assoc]; rfl
  rw [hmask x, hmask y, h]

theorem zero_of_lowBits {x y : Byte} (h : x &&& 0x1F = y &&& 0x1F) : getFlag x .zero = getFlag y .zero := by
  simpa [getFlag, Flag.bit] using congrArg (·.getLsbD 4) h

/-- AND writes the same Zero whatever F was, and no bit of the low nibble. -/
theorem flagsAfterAnd_lowBits {x y : Byte} (h : x &&& 0x1F = y &&& 0x1F) (res : Byte) :
    flagsAfterAnd x res &&& 0x1F = flagsAfterAnd y res &&& 0x1F := by
  rw [lowBits_eq, lowBits_eq (flagsAfterAnd y res), flagsAfterAnd_lowNibble, flagsAfterAnd_lowNibble,
    lowNibble_of_lowBits h]
  simp [flagsAfterAnd]

/-- CP writes the same Zero whatever F was and whatever `P_CP_NHC` answers, and no bit of the low nibble. -/
theorem flagsAfterCp_lowBits {x y : Byte} (h : x &&& 0x1F = y &&& 0x1F) (a d8 : Byte) (p q : Bool × Bool × Bool) :
    flagsAfterCp x a d8 p &&& 0x1F = flagsAfterCp y a d8 q &&& 0x1F := by
  rw [lowBits_eq, lowBits_eq (flagsAfterCp y a d8 q), flagsAfterCp_lowNibble, flagsAfterCp_lowNibble,
    lowNibble_of_lowBits h]
  simp [flagsAfterCp]

/-- Equal but for HalfCarry, Subtraction and Carry. -/
def EqualButUpperFlags (t t' : State) : Prop :=
  t'.setReg8 .f 0 = t.setReg8 .f 0 ∧ t'.reg8 .f &&& 0x1F = t.reg8 .f &&& 0x1F

theorem equalButUpperFlags_setF {s : State} {v : Byte} (h : v &&& 0x1F = s.reg8 .f &&& 0x1F) :
    EqualButUpperFlags s (s.setReg8 .f v) :=
  ⟨setReg8_setReg8 s .f v 0, by rwa [reg8_setReg8, if_pos rfl]⟩

theorem advance_f {s t : State} {k : Int} (h : s.advance k = .ok t) : t.reg8 .f = s.reg8 .f := by
  by_cases hk : 0 ≤ (s.pc.toNat : Int) + k ∧ (s.pc.toNat : Int) + k ≤ 0xFFFF
  · rw [advance_ok hk] at h
    cases h
    exact f_setReg16_pc s _
  · rw [advance_error hk] at h
    cases h

section upperFlags
variable {s : State} {v : Byte} (hv : v &&& 0x1F = s.reg8 .f &&& 0x1F)
include hv

/-- Writes of F that agree on bits 4..0, each followed by an advance. -/
theorem commit_setF_advance (u : State) {x y : Byte} (h : x &&& 0x1F = y &&& 0x1F) (k : Int) :
    OutcomeRel EqualButUpperFlags (commit s ((u.setReg8 .f y).advance k))
      (commit (s.setReg8 .f v) ((u.setReg8 .f x).advance k)) := by
  rw [← setReg8_setReg8 u .f y x, (patch_setF x).advance]
  refine .commit_map (fun f => equalButUpperFlags_setF hv) fun t ht => equalButUpperFlags_setF ?_
  rw [advance_f ht, reg8_setReg8, if_pos rfl, h]

theorem exec_equalButUpperFlags (i : Instr) :
    OutcomeRel EqualButUpperFlags (exec i s) (exec i (s.setReg8 .f v)) := by
  by_cases hi : WritesF i
  · have ha : (s.setReg8 .f v).reg8 .a = s.reg8 .a := (patch_setF v).reg8 s .a (by decide)
    have hf : (s.setReg8 .f v).reg8 .f = v := by rw [reg8_setReg8, if_pos rfl]
    have hset : ∀ x, (s.setReg8 .f v).setReg8 .a x = (s.setReg8 .a x).setReg8 .f v :=
      fun x => (patch_setF v).setReg8 s .a x (by decide)
    cases hi with
    | xorAA =>
      rw [exec_xorAA, exec_xorAA, ha, hset, setReg8_setReg8]
      exact commit_setF_advance hv _ rfl 1
    | andD8 d8 =>
      rw [exec_andD8, exec_andD8, ha, hf, hset, setReg8_setReg8]
      exact commit_setF_advance hv _ (flagsAfterAnd_lowBits hv _) 2
    | cpD8 d8 =>
      rw [exec_cpD8, exec_cpD8, ha, hf, setReg8_setReg8]
      exact commit_setF_advance hv _ (flagsAfterCp_lowBits hv _ _ _ _) 2
  · refine (exec_setF (zero_of_lowBits hv) hi).mono fun t _ ht h => ?_
    rw [h]
    exact equalButUpperFlags_setF (by rw [exec_f hi ht, hv])

end upperFlags

/-- Settles O36: XOR, AND and CP write a Zero that does not depend on the upper flags, and every other instruction passes
them on unread. -/
theorem upperFlagsSteerNothing : Obligations.UpperFlagsSteerNothing := by
  intro gk s v hv
  have h : OutcomeRel EqualButUpperFlags (stepWith gk s) (stepWith gk (s.setReg8 .f v)) :=
    .stepWith ((patch_setF v).mode s) ((patch_setF v).fetch s gk) (fun _ => equalButUpperFlags_setF hv)
      (exec_equalButUpperFlags hv)
  exact ⟨h.of_next, h.of_fault⟩

end Sys2Proof.Machine
end

section
/-! PROOFS. The family of spec/10_state.md: what construction leaves, and the registers and flags. -/

namespace Sys2Proof

theorem loByte_eq_extractLsb' (w : Word) : loByte w = w.extractLsb' 0 8 := BitVec.setWidth_eq_extractLsb' (by decide)

theorem hiByte_eq_extractLsb' (w : Word) : hiByte w = w.extractLsb' 8 8 := by
  apply BitVec.eq_of_getLsbD_eq
  intro k _
  rw [getLsbD_hiByte, BitVec.getLsbD_extractLsb']

end Sys2Proof

namespace Sys2Proof.Machine

/-! ## Construction -/

/-- Settles O2: an address below 0x8000 is mapped, and the initial memory holds the image there, then the padding. -/
theorem romAfterConstructionIsThePaddedImage : Obligations.RomAfterConstructionIsThePaddedImage := by
  intro image init ime hlen
  have hrom : ∀ i : Nat, i < 0x8000 →
      memRead8 (initialMemory image init) i = .ok ((initialMemory image init).read i) := by
    intro i hi
    rw [memRead8_eq, if_pos ((accessible_one_iff i).2 (by omega)), Int.toNat_natCast]
  refine ⟨_, construct_ok init ime hlen, fun i hi => ⟨?_, hrom i (by omega)⟩, fun i hi hi' => ?_⟩
  · rw [List.getElem?_eq_getElem hi, initialMemory_image hi hlen]
  · rw [hrom i hi', initialMemory_padding hi hi']

/-- Settles O1: construction keeps reset's register file. -/
theorem registerPairsAfterConstruction : Obligations.RegisterPairsAfterConstruction := by
  intro image init ime s hs
  have hreset : ∀ r, s.reg16 r = State.reset.reg16 r := by
    rcases hs with rfl | h
    · exact fun _ => rfl
    · obtain ⟨-, rfl⟩ := construct_cases h
      exact fun _ => rfl
  simp only [hreset]
  decide

/-! ## The register views -/

/-- An 8-bit write changes its own byte of the register file and nothing else. -/
theorem frame_setReg8 (s : State) (r : Reg8) (v : Byte) : Claims.Frame s (s.setReg8 r v) [reg8Offset r] [] := by
  refine ⟨fun i hi => ?_, fun _ _ => rfl, rfl, rfl⟩
  rw [List.mem_singleton] at hi
  rw [rfByte_setReg8, if_neg hi]

/-- A 16-bit write changes its own two bytes of the register file and nothing else. -/
theorem frame_setReg16 (s : State) (r : Reg16) (w : Word) :
    Claims.Frame s (s.setReg16 r w) [reg16LowOffset r, reg16HighOffset r] [] := by
  refine ⟨fun i hi => ?_, fun _ _ => rfl, rfl, rfl⟩
  simp only [List.mem_cons, List.not_mem_nil, or_false, not_or] at hi
  obtain ⟨hlo, hhi⟩ := hi
  rw [rfByte_setReg16, if_neg hhi, if_neg hlo]

/-- Settles O8. -/
theorem viewWritesChangeOnlyTheirOwnBytes : Obligations.ViewWritesChangeOnlyTheirOwnBytes := fun s r rr v w =>
  ⟨frame_setReg8 s r v, by rw [reg8_setReg8, if_pos rfl], frame_setReg16 s rr w, by rw [reg16_setReg16, if_pos rfl]⟩

theorem rfByte_setReg16_low (s : State) (r : Reg16) (w : Word) :
    (s.setReg16 r w).rfByte (reg16LowOffset r) = w.extractLsb' 0 8 := by
  have h : reg16LowOffset r ≠ reg16HighOffset r := by cases r <;> decide
  rw [rfByte_setReg16, if_neg h, if_pos rfl, loByte_eq_extractLsb']

theorem rfByte_setReg16_high (s : State) (r : Reg16) (w : Word) :
    (s.setReg16 r w).rfByte (reg16HighOffset r) = w.extractLsb' 8 8 := by
  rw [rfByte_setReg16, if_pos rfl, hiByte_eq_extractLsb']

/-- Settles O7: each 8-bit view of a pair is one of the two bytes of its 16-bit view. -/
theorem pairViewsAreLittleEndianOverTheirBytes : Obligations.PairViewsAreLittleEndianOverTheirBytes := by
  intro s v
  have low := fun r => rfByte_setReg16_low s r v
  have high := fun r => rfByte_setReg16_high s r v
  refine ⟨⟨rfl, rfl, rfl, rfl, rfl, rfl⟩,
    ⟨low .af, high .af, low .bc, high .bc, low .de, high .de, low .hl, high .hl, low .sp, high .sp, low .pc, high .pc⟩,
    ?_, rfByte_setReg16_high s .hl 0xABCD, rfByte_setReg16_low s .hl 0xABCD⟩
  change wordOf (((s.setReg8 .b 0x12).setReg8 .c 0x34).reg8 .b) (((s.setReg8 .b 0x12).setReg8 .c 0x34).reg8 .c) = 0x1234
  rw [reg8_setReg8, reg8_setReg8, reg8_setReg8, if_neg (by decide), if_pos rfl, if_pos rfl]
  rfl

/-- Settles O9: the mode of a view admits its own width only. -/
theorem registerViewsRefuseTheOtherWidth : Obligations.RegisterViewsRefuseTheOtherWidth :=
  fun _ _ _ _ _ => ⟨rfl, rfl, rfl, rfl, rfl, rfl, rfl, rfl⟩

/-! ## The flags -/

theorem flag_setFlag (s : State) (x y : Flag) (b : Bool) :
    (s.setFlag x b).flag y = if y = x then b else s.flag y := by
  rw [State.setFlag, flag_setReg8_f, getFlag_setFlag]
  rfl

/-- Settles O10: setting a flag is a write of F, whose other bits keep their values. -/
theorem setFlagWritesExactlyItsBit : Obligations.SetFlagWritesExactlyItsBit := by
  refine ⟨fun s => ⟨rfl, rfl, rfl, rfl⟩, fun s x b => ⟨?_, fun y hy => ?_, ?_, frame_setReg8 s .f _⟩⟩
  · rw [flag_setFlag, if_pos rfl]
  · rw [flag_setFlag, if_neg hy]
  · rw [State.setFlag, reg8_setReg8, if_pos rfl]
    exact setFlag_lowNibble _ _ _

end Sys2Proof.Machine
end

section
/-! PROOFS. The family of spec/20_memory.md: the address decoder, loads and stores of both widths, and the stack. -/

namespace Sys2Proof.Machine

/-! ## The address decoder -/

/-- No two regions share an address (R73). -/
theorem region_unique {r r' : Region} {off off' : Nat} (h : off < r.view.size) (h' : off' < r'.view.size)
    (heq : r.view.base + off = r'.view.base + off') : r = r' := by
  cases r <;> cases r' <;> simp only [Region.view, reduceCtorEq] at h h' heq ⊢ <;> omega

/-- An address in a region's range is decoded to that region, with its offset from the region's base. -/
theorem decodeAddr_of_range (r : Region) {a : Int} (ha : (r.view.base : Int) ≤ a ∧ a < (r.view.base + r.view.size : Int)) :
    decodeAddr a = .ok (r, (a - r.view.base).toNat) := by
  obtain ⟨hlo, hhi⟩ := ha
  rcases decodeAddr_cases a with ⟨r', off, h, hoff, ha⟩ | ⟨-, ha⟩
  · obtain rfl : r = r' := region_unique (off := (a - r.view.base).toNat) (by omega) hoff (by omega)
    rw [h, show (a - r.view.base).toNat = off by omega]
  · have hacc := accessible_of_offset r (off := (a - r.view.base).toNat) (n := 1) (by omega)
    rw [show ((r.view.base + (a - r.view.base).toNat : Nat) : Int) = a by omega, ha] at hacc
    cases hacc

/-- An address in no region is a memory fault of the decoder. -/
theorem decodeAddr_of_unmapped {a : Int} (h : ¬accessible 1 a = true) : decodeAddr a = .error (.memoryFault a) := by
  rcases decodeAddr_cases a with ⟨r, off, -, hoff, rfl⟩ | ⟨h', -⟩
  · exact absurd (accessible_of_offset r hoff) h
  · exact h'

/-- Settles O11: each range of the table is one region's, and the five ranges are all that is accessible. -/
theorem decoderMapsExactlyTheFiveRegions : Obligations.DecoderMapsExactlyTheFiveRegions := by
  intro a
  split_ifs with hrom hwram hio hhram hie
  · simpa [Region.view] using decodeAddr_of_range .rom (a := a) (by simp only [Region.view]; omega)
  · exact decodeAddr_of_range .workingRam (by simp only [Region.view]; omega)
  · exact decodeAddr_of_range .ioPorts (by simp only [Region.view]; omega)
  · exact decodeAddr_of_range .highRam (by simp only [Region.view]; omega)
  · subst hie
    exact decodeAddr_of_range .interruptEnable (by decide)
  · refine decodeAddr_of_unmapped fun h => ?_
    rw [accessible_one_iff] at h
    omega

/-! ## Loads after stores -/

theorem nonneg_of_accessible {a : Int} (h : accessible 1 a = true) : 0 ≤ a := by
  rw [accessible_one_iff] at h
  omega

theorem memRead8_of_accessible (m : Memory) {a : Int} (h : accessible 1 a = true) :
    memRead8 m a = .ok (m.read a.toNat) := by
  rw [memRead8_eq, if_pos h]

/-- A byte load after a byte store at the same address. -/
theorem memRead8_write_same (m : Memory) {a : Int} (v : Byte) (h : accessible 1 a = true) :
    memRead8 (m.write a.toNat v) a = .ok v := by
  rw [memRead8_of_accessible _ h, Memory.read_write, if_pos rfl]

/-- A word load is the two byte loads, the lower address in bits 7..0 (R81). -/
theorem memRead16_of_bytes {m : Memory} {a : Int} {lo hi : Byte} (h : accessible 2 a = true)
    (hlo : memRead8 m a = .ok lo) (hhi : memRead8 m (a + 1) = .ok hi) : memRead16 m a = .ok (wordOf hi lo) := by
  obtain ⟨h0, h1⟩ := accessible_one_of_two h
  have := nonneg_of_accessible h0
  rw [memRead8_of_accessible m h0] at hlo
  rw [memRead8_of_accessible m h1, show (a + 1).toNat = a.toNat + 1 by omega] at hhi
  cases hlo
  cases hhi
  rw [memRead16_eq, if_pos h]

/-- A word store within one region is two byte stores, bits 7..0 at the lower address (R83). -/
theorem memWrite16_of_accessible (m : Memory) {a : Int} (v : Word) (h : accessible 2 a = true) :
    memWrite16 m a v = .ok ((m.write a.toNat (loByte v)).write (a + 1).toNat (hiByte v)) := by
  have := nonneg_of_accessible (accessible_one_of_two h).1
  rw [memWrite16_eq, if_pos h, show (a + 1).toNat = a.toNat + 1 by omega]

/-- Settles O12: what is stored at a mapped address is loaded there, and no other load sees the store. -/
theorem byteStoreIsReadBackAndChangesOneByte : Obligations.ByteStoreIsReadBackAndChangesOneByte := by
  refine fun m a v => ⟨fun h => ⟨m.write a.toNat v, ?_, memRead8_write_same m v h, fun b hb => ?_⟩, fun h => ?_⟩
  · rw [memWrite8_eq, if_pos h]
  · exact memRead8_write_ne m v (nonneg_of_accessible h) hb
  · rw [memWrite8_eq, memRead8_eq, h]
    exact ⟨rfl, rfl⟩

/-- Settles O13: a word store is two byte stores, and the second leaves the first byte as stored. -/
theorem wordStoreIsLittleEndianAndReadBack : Obligations.WordStoreIsLittleEndianAndReadBack := by
  intro m a v h
  obtain ⟨h0, h1⟩ := accessible_one_of_two h
  have hother (b : Int) (hb : b ≠ a + 1) := memRead8_write_ne (m.write a.toNat (loByte v)) (hiByte v)
    (nonneg_of_accessible h1) hb
  have hlo := (hother a (by omega)).trans (memRead8_write_same m (loByte v) h0)
  have hhi := memRead8_write_same (m.write a.toNat (loByte v)) (hiByte v) h1
  refine ⟨_, memWrite16_of_accessible m v h, ?_, ?_, ?_, fun b hb hb' => ?_⟩
  · rw [memRead16_of_bytes h hlo hhi, wordOf_hiByte_loByte]
  · rw [hlo, loByte_eq_extractLsb']
  · rw [hhi, hiByte_eq_extractLsb']
  · exact (hother b hb').trans (memRead8_write_ne m _ (nonneg_of_accessible h0) hb)

/-- Settles O14: the listed ranges are where both bytes of the access lie in one region (R79). -/
theorem wordAccessFaultsOutsideOneRegion : Obligations.WordAccessFaultsOutsideOneRegion := by
  intro m a v
  rw [← accessible_two_iff]
  refine ⟨fun h => ?_, fun h => ?_⟩
  · rw [memRead16_eq, memWrite16_eq, if_neg h, if_neg h]
    exact ⟨rfl, rfl⟩
  · obtain ⟨h0, h1⟩ := accessible_one_of_two h
    have hlo := memRead8_of_accessible m h0
    have hhi := memRead8_of_accessible m h1
    exact ⟨_, _, _, hlo, hhi, memRead16_of_bytes h hlo hhi, memWrite16_of_accessible m v h⟩

/-! ## The canonical form -/

theorem Memory.read_of_unlisted {m : Memory} {a : Nat} (h : ∀ c ∈ m, c.1 ≠ a) : m.read a = Memory.unlisted a := by
  induction m with
  | nil => rfl
  | cons c rest ih =>
    rw [List.forall_mem_cons] at h
    rw [Memory.read, if_neg h.1.symm, ih h.2]

/-- A canonical memory lists no cell outside the five regions. -/
theorem Memory.wf.read_unmapped {m : Memory} (h : m.wf) {a : Nat} (ha : ¬accessible 1 (a : Int) = true) :
    m.read a = Memory.unlisted a :=
  Memory.read_of_unlisted fun c hc e => ha (e ▸ (h.2 c hc).2)

/-- Settles O15: the loads see every mapped byte, and at an unmapped address canonical memories list nothing. -/
theorem memoryWritesKeepTheCanonicalForm : Obligations.MemoryWritesKeepTheCanonicalForm := by
  refine ⟨fun _ _ _ _ hm h => memWrite8_wf h hm, fun _ _ _ _ hm h => memWrite16_wf h hm, fun m m' hm hm' hr => ?_⟩
  refine Memory.ext_of_wf hm hm' fun a => ?_
  by_cases ha : accessible 1 (a : Int) = true
  · have := hr a
    rw [memRead8_of_accessible m ha, memRead8_of_accessible m' ha] at this
    exact Except.ok.inj this
  · rw [hm.read_unmapped ha, hm'.read_unmapped ha]

/-! ## The stack -/

/-- A push is the word store at the push address, with SP moved there. -/
theorem push_of_memWrite16 {s : State} {v : Word} {m : Memory}
    (h : memWrite16 s.mem (s.pushAddress.toNat : Int) v = .ok m) :
    s.push v = .ok (State.setReg16 { s with mem := m } .sp s.pushAddress) := by
  rw [State.push, h]
  rfl

theorem pop_of_memRead16 {s : State} {v : Word} (h : memRead16 s.mem ((s.reg16 .sp).toNat : Int) = .ok v) :
    s.pop = .ok (v, s.setReg16 .sp (s.reg16 .sp + 2)) := by
  rw [State.pop, h]
  rfl

/-- With SP in [0xFF82, 0xFFFF] a push stays in High RAM (C6). -/
theorem accessible_pushAddress {s : State} (h : 0xFF82 ≤ (s.reg16 .sp).toNat) :
    accessible 2 (s.pushAddress.toNat : Int) = true := by
  have hsp : s.pushAddress.toNat = (s.reg16 .sp).toNat - 2 :=
    BitVec.toNat_sub_of_le (BitVec.le_def.2 (Nat.le_trans (by decide) h))
  have := (s.reg16 .sp).isLt
  rw [accessible_two_iff]
  omega

/-- Settles O16: a push is a word store at the address where the pop then loads, and the pop adds back what the push took
from SP. -/
theorem pushThenPopGivesTheValueBack : Obligations.PushThenPopGivesTheValueBack := by
  refine fun s v => ⟨fun h => ?_, fun h => ?_, accessible_pushAddress⟩
  · obtain ⟨m, hwrite, hread, -, -, hframe⟩ := wordStoreIsLittleEndianAndReadBack s.mem _ v h
    have hsp : (State.setReg16 { s with mem := m } .sp s.pushAddress).reg16 .sp = s.reg16 .sp - 2 := by
      rw [reg16_setReg16, if_pos rfl, State.pushAddress]
    obtain ⟨hregs, -, -, -⟩ := frame_setReg16 { s with mem := m } .sp s.pushAddress
    refine ⟨_, _, push_of_memWrite16 hwrite, hsp, pop_of_memRead16 (by rw [hsp]; exact hread), ?_, hregs, fun b hb => ?_,
      rfl, rfl⟩
    · rw [reg16_setReg16, if_pos rfl, hsp, BitVec.sub_add_cancel]
    · simp only [List.mem_cons, List.not_mem_nil, or_false, not_or] at hb
      obtain ⟨hlo, hhi⟩ := hb
      exact hframe b hlo hhi
  · rw [push_eq, State.pushAddress, h]
    rfl

end Sys2Proof.Machine
end

section
/-! PROOFS. The family of spec/30_encoding.md: every instruction has its row and every row its instructions, so decoder and
encoder are inverse to each other. -/

namespace Sys2Proof.Laws.RowOf

/-- Every well-formed instruction has a row. -/
theorem row_of_instr : ∀ i, Statement i
  | .nop => nop | .ret => ret | .di => di | .res0A => res0A | .xorAA => xorAA
  | .ldBcD16 d16 => ldBcD16 d16 | .ldDeD16 d16 => ldDeD16 d16 | .ldHlD16 d16 => ldHlD16 d16 | .ldSpD16 d16 => ldSpD16 d16
  | .jrR8 r8 => jrR8 r8 | .jrNzR8 r8 => jrNzR8 r8 | .jrZR8 r8 => jrZR8 r8
  | .ldIndHlD8 d8 => ldIndHlD8 d8 | .ldAD8 d8 => ldAD8 d8 | .andD8 d8 => andD8 d8 | .cpD8 d8 => cpD8 d8
  | .jpA16 a16 => jpA16 a16 | .callA16 a16 => callA16 a16 | .ldIndA16A a16 => ldIndA16A a16
  | .ldhIndA8A a8 => ldhIndA8A a8 | .ldhAIndA8 a8 => ldhAIndA8 a8
  | .ldBFromB => ldBFromB | .ldBFromC => ldBFromC | .ldBFromD => ldBFromD | .ldBFromE => ldBFromE
  | .ldBFromH => ldBFromH | .ldBFromL => ldBFromL | .ldBFromA => ldBFromA
  | .ldCFromB => ldCFromB | .ldCFromC => ldCFromC | .ldCFromD => ldCFromD | .ldCFromE => ldCFromE
  | .ldCFromH => ldCFromH | .ldCFromL => ldCFromL | .ldCFromA => ldCFromA
  | .ldDFromB => ldDFromB | .ldDFromC => ldDFromC | .ldDFromD => ldDFromD | .ldDFromE => ldDFromE
  | .ldDFromH => ldDFromH | .ldDFromL => ldDFromL | .ldDFromA => ldDFromA
  | .ldEFromB => ldEFromB | .ldEFromC => ldEFromC | .ldEFromD => ldEFromD | .ldEFromE => ldEFromE
  | .ldEFromH => ldEFromH | .ldEFromL => ldEFromL | .ldEFromA => ldEFromA
  | .ldHFromB => ldHFromB | .ldHFromC => ldHFromC | .ldHFromD => ldHFromD | .ldHFromE => ldHFromE
  | .ldHFromH => ldHFromH | .ldHFromL => ldHFromL | .ldHFromA => ldHFromA
  | .ldLFromB => ldLFromB | .ldLFromC => ldLFromC | .ldLFromD => ldLFromD | .ldLFromE => ldLFromE
  | .ldLFromH => ldLFromH | .ldLFromL => ldLFromL | .ldLFromA => ldLFromA
  | .ldAFromB => ldAFromB | .ldAFromC => ldAFromC | .ldAFromD => ldAFromD | .ldAFromE => ldAFromE
  | .ldAFromH => ldAFromH | .ldAFromL => ldAFromL | .ldAFromA => ldAFromA

end Sys2Proof.Laws.RowOf

namespace Sys2Proof

/-! ## Decoding what was encoded -/

/-- Settles O17: an instruction's opcode bytes are those of its row's key, and its operand bytes build it. -/
theorem decodeOfEncodeIsTheInstruction : Obligations.DecodeOfEncodeIsTheInstruction := by
  intro gk i rest hi
  obtain ⟨key, row, hopcode, hrow, hbuilds⟩ := Laws.RowOf.row_of_instr i gk hi
  exact decode_of_row hopcode hrow hbuilds rest

theorem decode_encode {gk : Bool} {i : Instr} (hi : i.wellFormed gk = true) : decode gk (encode i) = .ok (i, []) := by
  rw [← List.append_nil (encode i)]
  exact decodeOfEncodeIsTheInstruction gk i [] hi

/-- Settles O21: nine of the strings are the encodings of their instructions, and 0x137 has no row. -/
theorem wordsOfEachFamilyDecode : Obligations.WordsOfEachFamilyDecode := by
  have word (i : Instr) {bs : List Byte} (h : i.wellFormed true = true ∧ encode i = bs) :
      decode true bs = .ok (i, []) := by
    obtain ⟨hi, rfl⟩ := h
    exact decode_encode hi
  exact ⟨word (.ldBcD16 0x1234) (by decide), word (.ldIndHlD8 0x5A) (by decide), word .ldBFromC (by decide),
    word (.ldhIndA8A 0x80) (by decide), word (.andD8 0x0F) (by decide), word (.jrZR8 (-2)) (by decide),
    word (.callA16 0x0200) (by decide), word .res0A (by decide), word .di (by decide), rfl⟩

/-- An LD r,r' is admitted under `P_GK_FORMS`, and its encoding is the word of its two register codes (R115). -/
theorem encode_ldRegisters {i : Instr} {dst src : Reg8} (h : i.ldRegisters = some (dst, src)) :
    ∃ d r, Claims.registerCode dst = some d ∧ Claims.registerCode src = some r ∧
      i.wellFormed true = true ∧ encode i = [BitVec.ofNat 8 (0x40 + 8 * d + r)] := by
  cases i <;> cases h <;> exact ⟨_, _, rfl, rfl, rfl, rfl⟩

/-- Settles O22: the word is the instruction's encoding. -/
theorem ldRegisterOpcodesFollowTheRegisterCodes : Obligations.LdRegisterOpcodesFollowTheRegisterCodes := by
  intro i dst src h
  obtain ⟨d, r, hdst, hsrc, hi, hword⟩ := encode_ldRegisters h
  exact ⟨d, r, hdst, hsrc, hword ▸ decode_encode hi⟩

/-! ## Encoding what was decoded -/

theorem primaryKey_toNat (b0 : Byte) : (primaryKey b0).toNat = b0.toNat := by
  rw [primaryKey, zext16, BitVec.toNat_setWidth_of_le (by decide)]

theorem extendedKey_toNat (b1 : Byte) : (extendedKey b1).toNat = 0x100 + b1.toNat := by
  rw [extendedKey, zext16, BitVec.toNat_or, BitVec.toNat_setWidth_of_le (by decide)]
  exact (Nat.two_pow_add_eq_or_of_lt (i := 8) b1.isLt 1).symm

theorem loByte_primaryKey (b0 : Byte) : loByte (primaryKey b0) = b0 := by
  rw [loByte, primaryKey, zext16, BitVec.setWidth_setWidth_of_le _ (by decide), BitVec.setWidth_eq]

theorem loByte_extendedKey (b1 : Byte) : loByte (extendedKey b1) = b1 := by
  rw [loByte, extendedKey, BitVec.setWidth_or]
  exact (BitVec.zero_or).trans (loByte_primaryKey b1)

/-- The opcode bytes of a composite key (R110): bits 7..0, after the 0xCB marker if the key is 0x100 or above. -/
def opcodeOfKey (key : Word) : List Byte := if key.toNat < 0x100 then [loByte key] else [cbMarker, loByte key]

theorem length_opcodeOfKey (key : Word) : (opcodeOfKey key).length = if key.toNat < 0x100 then 1 else 2 := by
  unfold opcodeOfKey
  split <;> rfl

theorem OpcodeBytes.eq_opcodeOfKey {opcode : List Byte} {key : Word} (h : OpcodeBytes opcode key) :
    opcode = opcodeOfKey key := by
  cases h with
  | primary b0 _ => rw [opcodeOfKey, primaryKey_toNat, if_pos b0.isLt, loByte_primaryKey]
  | extended b1 => rw [opcodeOfKey, extendedKey_toNat, if_neg (by omega), loByte_extendedKey]

theorem OpcodeBytes.keyOfBytes {opcode : List Byte} {key : Word} (h : OpcodeBytes opcode key) (rest : List Byte) :
    Claims.keyOfBytes (opcode ++ rest) = key := by
  cases h with
  | extended b1 => rfl
  | primary b0 hb =>
    unfold Claims.keyOfBytes
    split
    · next heq => exact absurd (List.cons.inj heq).1 hb
    · next heq => rw [← (List.cons.inj heq).1]; rfl
    · next heq => cases heq

/-- What a row's instruction is: admitted where the row is, its operands in range, and encoded as the row's opcode bytes
and the immediate it was built from. -/
structure Row.Encodes (row : Row) (operands : List Byte) (i : Instr) : Prop where
  bytes : encode i = opcodeOfKey row.descriptor.key ++ operands
  gated : i.isGkForm = row.gk
  inRange : i.operandsInRange = true

/-- Every instruction the row's template builds is the row's. -/
def Row.Sound (row : Row) : Prop :=
  ∀ operands i, row.template.Builds operands i → row.Encodes operands i

theorem sound_op {d : Descriptor} {gk : Bool} {i : Instr} (h : Row.Encodes ⟨d, gk, .op i⟩ [] i) :
    Row.Sound ⟨d, gk, .op i⟩ := by
  rintro _ _ ⟨⟩
  exact h

theorem sound_opI8 {d : Descriptor} {gk : Bool} {build : Byte → Instr}
    (h : ∀ b, Row.Encodes ⟨d, gk, .opI8 build⟩ [b] (build b)) : Row.Sound ⟨d, gk, .opI8 build⟩ := by
  rintro _ _ ⟨⟩
  exact h _

/-- It suffices that the instruction of a word has the word's bytes, low byte first. -/
theorem sound_opI16 {d : Descriptor} {gk : Bool} {build : Word → Instr}
    (h : ∀ w, Row.Encodes ⟨d, gk, .opI16 build⟩ (immediate16 w) (build w)) : Row.Sound ⟨d, gk, .opI16 build⟩ := by
  rintro _ _ ⟨⟩
  next lo hi => simpa [immediate16] using h (wordOf hi lo)

/-- The three JR rows: the displacement of a byte is in range and has that byte. -/
theorem sound_displacement {d : Descriptor} {gk : Bool} {build : Int → Instr}
    (h : ∀ r8, displacementInRange r8 = true →
      Row.Encodes ⟨d, gk, .opI8 fun b => build (sext8 b)⟩ [displacementByte r8] (build r8)) :
    Row.Sound ⟨d, gk, .opI8 fun b => build (sext8 b)⟩ :=
  sound_opI8 fun b => by simpa using h (sext8 b) (displacementInRange_sext8 b)

/-- The rows in the table's order, each by the format of its immediate (R112). -/
theorem mainRows_sound : ∀ row ∈ mainRows, row.Sound := by
  simp only [mainRows, List.forall_mem_cons]
  exact ⟨sound_op ⟨rfl, rfl, rfl⟩,
    sound_opI16 fun _ => ⟨rfl, rfl, rfl⟩, sound_opI16 fun _ => ⟨rfl, rfl, rfl⟩,
    sound_opI16 fun _ => ⟨rfl, rfl, rfl⟩, sound_opI16 fun _ => ⟨rfl, rfl, rfl⟩,
    sound_displacement fun _ h => ⟨rfl, rfl, h⟩, sound_displacement fun _ h => ⟨rfl, rfl, h⟩,
    sound_displacement fun _ h => ⟨rfl, rfl, h⟩,
    sound_opI8 fun _ => ⟨rfl, rfl, rfl⟩, sound_opI8 fun _ => ⟨rfl, rfl, rfl⟩,
    sound_op ⟨rfl, rfl, rfl⟩,
    sound_opI16 fun _ => ⟨rfl, rfl, rfl⟩,
    sound_op ⟨rfl, rfl, rfl⟩,
    sound_opI16 fun _ => ⟨rfl, rfl, rfl⟩,
    sound_opI8 fun _ => ⟨rfl, rfl, rfl⟩, sound_opI8 fun _ => ⟨rfl, rfl, rfl⟩,
    sound_opI16 fun _ => ⟨rfl, rfl, rfl⟩,
    sound_opI8 fun _ => ⟨rfl, rfl, rfl⟩,
    sound_op ⟨rfl, rfl, rfl⟩,
    sound_opI8 fun _ => ⟨rfl, rfl, rfl⟩, nofun⟩

/-- The rows beside `mainRows`, those of LD r,r' and of RES 0,A, have no immediate. -/
theorem table_sound : ∀ row ∈ table, row.Sound := by
  simp only [table, ldBRows, ldCRows, ldDRows, ldERows, ldHRows, ldLRows, ldARows, extendedRows, List.forall_mem_append,
    List.forall_mem_cons, List.not_mem_nil, false_imp_iff, implies_true, and_true]
  and_intros
  · exact mainRows_sound
  all_goals exact sound_op ⟨rfl, rfl, rfl⟩

/-- Settles O18: the row that was decoded encodes its instructions as its opcode bytes and their immediates. -/
theorem encodeOfDecodeIsTheBytes : Obligations.EncodeOfDecodeIsTheBytes := by
  intro gk bs i rest h
  obtain ⟨opcode, key, row, operands, hopcode, hrow, hbuilds, rfl⟩ := decode_ok h
  obtain ⟨hmem, hkey, hadmitted⟩ := lookup_some hrow
  obtain ⟨hbytes, hgated, hrange⟩ := table_sound row hmem operands i hbuilds
  refine ⟨?_, ?_⟩
  · rw [Instr.wellFormed, hrange, hgated]
    simpa using hadmitted
  · rw [hbytes, hkey, hopcode.eq_opcodeOfKey]

/-- Settles O20: what was decoded is the opcode bytes of an admitted row's key and the immediate of its shapes. -/
theorem decodedLengthIsTheDescriptorLength : Obligations.DecodedLengthIsTheDescriptorLength := by
  intro gk bs i rest h
  obtain ⟨opcode, key, row, operands, hopcode, hrow, hbuilds, rfl⟩ := decode_ok h
  obtain ⟨hmem, hkey, -⟩ := lookup_some hrow
  refine ⟨row, ?_, ?_⟩
  · rw [List.append_assoc, hopcode.keyOfBytes, hrow]
  · rw [List.length_append, List.length_append, builds_length hmem hbuilds, hkey, ← length_opcodeOfKey,
      hopcode.eq_opcodeOfKey]

/-! ## The admitted keys -/

/-- The keys of the table's rows, those that `P_GK_FORMS` gates or the others. -/
def tableKeys (gated : Bool) : List Word := (table.filter fun r => r.gk == gated).map fun r => r.descriptor.key

theorem mem_tableKeys {gated : Bool} {key : Word} :
    key ∈ tableKeys gated ↔ ∃ row ∈ table, row.gk = gated ∧ row.descriptor.key = key := by
  simp [tableKeys, and_assoc]

theorem lookup_isSome_iff (gk : Bool) (key : Word) :
    (lookup gk key).isSome = true ↔ key ∈ tableKeys false ∨ (gk = true ∧ key ∈ tableKeys true) := by
  simp only [lookup, List.find?_isSome, mem_tableKeys, Bool.and_eq_true, beq_iff_eq, Bool.or_eq_true,
    Bool.not_eq_true']
  constructor
  · rintro ⟨row, hmem, hkey, hadmitted⟩
    cases hgk : row.gk with
    | false => exact .inl ⟨row, hmem, hgk, hkey⟩
    | true => exact .inr ⟨by simpa [hgk] using hadmitted, row, hmem, hgk, hkey⟩
  · rintro (⟨row, hmem, hgk, hkey⟩ | ⟨hgk, row, hmem, -, hkey⟩)
    · exact ⟨row, hmem, hkey, .inr hgk⟩
    · exact ⟨row, hmem, hkey, .inl hgk⟩

/-- The 3-bit codes that R115 gives to registers: all but 110. -/
def registerCodes : List Nat := [0, 1, 2, 3, 4, 5, 7]

theorem mem_registerCodes {d : Nat} : d ∈ registerCodes ↔ d < 8 ∧ d ≠ 6 := by
  simp only [registerCodes, List.mem_cons, List.not_mem_nil, or_false]
  omega

/-- The key `01dddsss` of two codes (R115). -/
def ldKey (d r : Nat) : Word := BitVec.ofNat 16 (0x40 + 8 * d + r)

theorem tableKeys_ungated : tableKeys false =
    [0x00, 0x01, 0x11, 0x21, 0x31, 0x18, 0x20, 0x28, 0x36, 0xC3, 0xC9, 0xCD, 0xE0, 0xE6, 0xEA, 0xF0, 0xF3, 0xFE,
      0x187] := rfl

theorem tableKeys_gated :
    tableKeys true = 0x3E :: 0xAF :: registerCodes.flatMap fun d => registerCodes.map (ldKey d) := rfl

/-- A key has the form `01dddsss` with register codes exactly when its two fields are such codes. -/
theorem exists_ldKey_iff (key : Word) : (∃ d ∈ registerCodes, ∃ r ∈ registerCodes, ldKey d r = key) ↔
    0x40 ≤ key.toNat ∧ key.toNat ≤ 0x7F ∧ key.toNat / 8 % 8 ≠ 6 ∧ key.toNat % 8 ≠ 6 := by
  simp only [mem_registerCodes]
  constructor
  · rintro ⟨d, hd, r, hr, rfl⟩
    rw [ldKey, BitVec.toNat_ofNat]
    omega
  · intro h
    refine ⟨key.toNat / 8 % 8, by omega, key.toNat % 8, by omega, ?_⟩
    apply BitVec.eq_of_toNat_eq
    rw [ldKey, BitVec.toNat_ofNat]
    omega

/-- Settles O19: the gated keys are 0x3E, 0xAF and those of LD r,r'. -/
theorem admittedKeysAreExactlyTheTable : Obligations.AdmittedKeysAreExactlyTheTable := by
  intro gk key
  rw [lookup_isSome_iff, tableKeys_gated, List.mem_cons, List.mem_cons, tableKeys_ungated, ← exists_ldKey_iff]
  simp only [List.mem_flatMap, List.mem_map]

end Sys2Proof

namespace Sys2Proof.Machine

/-! ## An immediate that cannot be read -/

/-- A row whose shapes have at least `n` immediate bytes, 1 or 2, takes a memory fault at an operand address where an
access of `n` bytes does. -/
theorem fetchOperand_unreadable {row : Row} (hrow : row ∈ table) {n : Nat} (hn : n = 1 ∨ n = 2)
    (hbytes : n ≤ row.descriptor.operand1.bytes + row.descriptor.operand2.bytes) (m : Memory) {a : Int}
    (ha : accessible n a = false) : fetchOperand m a row.template = .error (.memoryFault a) := by
  have htwo : accessible 2 a = false := by
    rcases hn with rfl | rfl
    · exact not_accessible_two (by simp [ha])
    · exact ha
  cases ht : row.template with
  | op i =>
    have hlen := builds_length hrow (by rw [ht]; exact .op i)
    rw [List.length_nil] at hlen
    omega
  | opI8 build =>
    have hlen := builds_length hrow (by rw [ht]; exact .opI8 build 0)
    rw [List.length_singleton] at hlen
    obtain rfl : n = 1 := by omega
    rw [fetchOperand, memRead8_eq, if_neg (by simp [ha])]
    rfl
  | opI16 build =>
    rw [fetchOperand, memRead16_eq, if_neg (by simp [htwo])]
    rfl

theorem bytes_of_mem_shapes {d : Descriptor} {x : Shape} (h : d.operand1 = x ∨ d.operand2 = x) :
    x.bytes ≤ d.operand1.bytes + d.operand2.bytes := by
  rcases h with rfl | rfl
  · exact Nat.le_add_right _ _
  · exact Nat.le_add_left _ _

/-- Settles O30: the fetch reads the row's immediate at PC + 1, and a fault of the fetch is taken before `exec`. -/
theorem unreadableOperandFaultsBeforeAnyEffect : Obligations.UnreadableOperandFaultsBeforeAnyEffect := by
  intro gk s b0 row hmode hread hb0 hrow
  obtain ⟨hmem, -, -⟩ := lookup_some hrow
  have hfetch : fetch gk s = fetchOperand s.mem ((s.pc.toNat : Int) + 1) row.template :=
    fetch_of_parts (fetchKey_primary hread hb0) hrow
  have fault {n : Nat} (hn : n = 1 ∨ n = 2)
      (hbytes : n ≤ row.descriptor.operand1.bytes + row.descriptor.operand2.bytes)
      (ha : accessible n ((s.pc.toNat : Int) + 1) = false) :
      Claims.TakesFault (stepWith gk s) s (.memoryFault ((s.pc.toNat : Int) + 1)) := by
    rw [stepWith_running hmode, hfetch, fetchOperand_unreadable hmem hn hbytes s.mem ha, orFault_error]
    rfl
  exact ⟨fun h => fault (.inl rfl) (bytes_of_mem_shapes h), fun h => fault (.inr rfl) (bytes_of_mem_shapes h)⟩

end Sys2Proof.Machine
end

section
/-! PROOFS. The family of spec/40_step_engine.md: what a step answers, and what it fetches. -/

namespace Sys2Proof.Machine

/-! ## What a step and `step()` answer -/

/-- A step from Running completes an instruction, or takes a fault and changes only the mode. -/
theorem stepWith_completes_or_faults (gk : Bool) {s : State} (h : s.mode = .running) :
    (∃ t, stepWith gk s = .next t ∧ Completed s t) ∨ ∃ f, stepWith gk s = .next (s.enterFaulted f) := by
  rcases stepWith_cases gk h with ⟨f, -, hf⟩ | ⟨-, t, -, -, ht, hc⟩ | ⟨-, f, -, hf, -⟩
  · exact .inr ⟨f, hf⟩
  · exact .inl ⟨t, ht, hc⟩
  · exact .inr ⟨f, hf⟩

theorem hostStep_of_next {gk : Bool} {s t : State} (h : stepWith gk s = .next t) :
    hostStep gk s = (t, t.mode.recorded) := by
  simp only [hostStep, h]

theorem hostStep_of_fault {gk : Bool} {s : State} {f : Fault} (h : stepWith gk s = .fault f) :
    hostStep gk s = (s, some f) := by
  simp only [hostStep, h]

/-- Settles O25: completing an instruction and taking a fault are both next states. -/
theorem runningStepAlwaysAnswersNext : Obligations.RunningStepAlwaysAnswersNext := by
  intro gk s hm
  rcases stepWith_completes_or_faults gk hm with ⟨t, ht, -⟩ | ⟨f, hf⟩
  · exact ⟨t, ht⟩
  · exact ⟨_, hf⟩

/-- Settles O26: a completed instruction leaves the mode Running, so a Faulted next state is the one that the fault left. -/
theorem raisedFaultLeavesThePreStepState : Obligations.RaisedFaultLeavesThePreStepState := by
  intro gk s t f hm ht hf
  refine ⟨?_, by rw [hostStep_of_next ht, hf]; rfl⟩
  rcases stepWith_completes_or_faults gk hm with ⟨u, hu, hc⟩ | ⟨g, hg⟩
  · cases hu.symm.trans ht
    rw [hc.mode, hm] at hf
    cases hf
  · cases hg.symm.trans ht
    cases hf
    rfl

/-- Settles O24. -/
theorem faultedIsTerminal : Obligations.FaultedIsTerminal := fun _ _ _ h =>
  ⟨stepWith_faulted h, hostStep_of_fault (stepWith_faulted h)⟩

/-- Settles O33, by induction on the number of steps: each step keeps the invariant (`everyStepKeepsTheInvariant`). -/
theorem safeRunsEndRunningInTheInvariant : Obligations.SafeRunsEndRunningInTheInvariant := by
  intro gk n
  induction n with
  | zero =>
    rintro s _ hs ⟨hm, rfl⟩
    exact ⟨hs, hm⟩
  | succ n ih =>
    rintro s t hs ⟨u, -, hu, hrun⟩
    exact ih u t (everyStepKeepsTheInvariant gk s u hs hu) hrun

/-! ## A fetch that faults -/

/-- A fault of the fetch is taken, and nothing but the mode changes. -/
theorem takesFault_of_fetch {gk : Bool} {s : State} {f : Fault} (hm : s.mode = .running) (h : fetch gk s = .error f) :
    Claims.TakesFault (stepWith gk s) s f := by
  rw [stepWith_running hm, h, orFault_error]
  rfl

theorem memRead8_of_unmapped (m : Memory) {a : Int} (h : accessible 1 a = false) :
    memRead8 m a = .error (.memoryFault a) := by
  rw [memRead8_eq, if_neg (by simp [h])]

theorem fetchKey_unmapped {s : State} (h : accessible 1 (s.pc.toNat : Int) = false) :
    fetchKey s = .error (.memoryFault s.pc.toNat) := by
  rw [fetchKey, memRead8_of_unmapped _ h, bind_error]

theorem fetchKey_extended_unmapped {s : State} (h : memRead8 s.mem s.pc.toNat = .ok cbMarker)
    (h1 : accessible 1 ((s.pc.toNat : Int) + 1) = false) :
    fetchKey s = .error (.memoryFault ((s.pc.toNat : Int) + 1)) := by
  rw [fetchKey, h, bind_ok, if_pos rfl, memRead8_of_unmapped _ h1]
  rfl

/-- Settles O27: the three ranges lie between the five regions. -/
theorem fetchOfAnUnmappedOpcodeFaults : Obligations.FetchOfAnUnmappedOpcodeFaults := by
  intro gk s hm hpc
  have hun : accessible 1 (s.pc.toNat : Int) = false := by
    rw [← Bool.not_eq_true, accessible_one_iff]
    omega
  exact takesFault_of_fetch hm (fetch_of_keyFault (fetchKey_unmapped hun))

/-- Settles O28. -/
theorem cbMarkerBeforeAnUnmappedByteFaults : Obligations.CbMarkerBeforeAnUnmappedByteFaults :=
  fun _ _ hm hb0 hb1 => takesFault_of_fetch hm (fetch_of_keyFault (fetchKey_extended_unmapped hb0 hb1))

/-- Settles O29: the key is read before the lookup, and the lookup comes before the operand read. -/
theorem unadmittedKeyIsUnknownOpcode : Obligations.UnadmittedKeyIsUnknownOpcode := by
  intro gk s b0 b1 hm hb0
  refine ⟨fun hne hrow => ?_, ?_⟩
  · exact takesFault_of_fetch hm (fetch_of_unknown (fetchKey_primary hb0 hne) hrow)
  · rintro rfl hb1 hrow
    exact takesFault_of_fetch hm (fetch_of_unknown (fetchKey_extended hb0 hb1) hrow)

/-! ## A fetch of bytes that decode -/

/-- The bytes are read one by one from the address upward. -/
def ReadsBytes (m : Memory) (a : Int) (bs : List Byte) : Prop :=
  ∀ (k : Nat) (b : Byte), bs[k]? = some b → memRead8 m (a + k) = .ok b

theorem ReadsBytes.head {m : Memory} {a : Int} {b : Byte} {bs : List Byte} (h : ReadsBytes m a (b :: bs)) :
    memRead8 m a = .ok b := by
  simpa using h 0 b rfl

theorem ReadsBytes.left {m : Memory} {a : Int} {xs ys : List Byte} (h : ReadsBytes m a (xs ++ ys)) :
    ReadsBytes m a xs := fun k b hk =>
  h k b (by rw [List.getElem?_append_left (List.getElem?_eq_some_iff.1 hk).1, hk])

theorem ReadsBytes.right {m : Memory} {a : Int} {xs ys : List Byte} (h : ReadsBytes m a (xs ++ ys)) :
    ReadsBytes m (a + xs.length) ys := by
  intro k b hk
  have := h (xs.length + k) b (by rw [List.getElem?_append_right (by omega), Nat.add_sub_cancel_left, hk])
  rwa [Nat.cast_add, ← Int.add_assoc] at this

/-- The opcode bytes of a key at PC are fetched as that key. -/
theorem fetchKey_of_bytes {s : State} {opcode : List Byte} {key : Word} (ho : OpcodeBytes opcode key)
    (h : ReadsBytes s.mem s.pc.toNat opcode) : fetchKey s = .ok (key, opcode.length) := by
  cases ho with
  | primary b0 hb => exact fetchKey_primary h.head hb
  | extended b1 => exact fetchKey_extended h.head (h.right (xs := [cbMarker])).head

/-- The immediate's bytes at an address are fetched as the instruction they build. -/
theorem fetchOperand_of_bytes {m : Memory} {a : Int} {t : Template} {operands : List Byte} {i : Instr}
    (hb : t.Builds operands i) (h : ReadsBytes m a operands) (hword : operands.length = 2 → accessible 2 a = true) :
    fetchOperand m a t = .ok i := by
  cases hb with
  | op => rfl
  | opI8 build b => rw [fetchOperand, h.head]; rfl
  | opI16 build lo hi =>
    rw [fetchOperand, memRead16_of_bytes (hword rfl) h.head (h.right (xs := [lo])).head]
    rfl

/-- No 0xCB-prefixed row has a 16-bit immediate (R117). -/
theorem opcode_length_of_word_immediate {row : Row} (hrow : row ∈ table) {opcode operands : List Byte} {i : Instr}
    (ho : OpcodeBytes opcode row.descriptor.key) (hb : row.template.Builds operands i) (h : operands.length = 2) :
    opcode.length = 1 := by
  have unprefixed : ∀ r ∈ table, r.descriptor.operand1.bytes + r.descriptor.operand2.bytes = 2 →
      r.descriptor.key.toNat < 0x100 := by decide
  rw [builds_length hrow hb] at h
  rw [ho.eq_opcodeOfKey, length_opcodeOfKey, if_pos (unprefixed row hrow h)]

/-- A fetch reads what the decoder decodes, when the bytes decoded can be read and a 16-bit immediate lies in one region. -/
theorem fetch_of_decode {gk : Bool} {s : State} {opcode operands : List Byte} {key : Word} {row : Row} {i : Instr}
    (ho : OpcodeBytes opcode key) (hl : lookup gk key = some row) (hb : row.template.Builds operands i)
    (h : ReadsBytes s.mem s.pc.toNat (opcode ++ operands))
    (hword : (opcode ++ operands).length = 3 → accessible 2 ((s.pc.toNat : Int) + 1) = true) :
    fetch gk s = .ok i := by
  obtain ⟨hmem, rfl, -⟩ := lookup_some hl
  rw [fetch_of_parts (fetchKey_of_bytes ho h.left) hl]
  refine fetchOperand_of_bytes hb h.right fun htwo => ?_
  have hone := opcode_length_of_word_immediate hmem ho hb htwo
  rw [hone]
  exact hword (by rw [List.length_append, hone, htwo])

/-- Settles O23: the decoded bytes are an opcode and an immediate, and both are what the fetch reads at PC. -/
theorem stepRunsTheDecodedInstruction : Obligations.StepRunsTheDecodedInstruction := by
  intro gk s bs i rest hm hd hread hword
  obtain ⟨opcode, key, row, operands, ho, hl, hb, rfl⟩ := decode_ok hd
  have hbytes : ReadsBytes s.mem s.pc.toNat (opcode ++ operands) := by
    intro k b hk
    have hlt := (List.getElem?_eq_some_iff.1 hk).1
    refine hread k b ?_ ?_
    · simp only [List.length_append] at hlt ⊢
      omega
    · rw [List.getElem?_append_left hlt, hk]
  have hfetch := fetch_of_decode ho hl hb hbytes fun h3 => hword (by rw [List.length_append, h3, Nat.add_comm])
  rw [stepWith_running hm, hfetch, orFault_ok]

end Sys2Proof.Machine
end

section
/-! PROOFS. The family of spec/41_loads.md: the loads and stores that complete, and those that fault at their address. A
load or store is one write to a register view or to memory, followed by a fixed advance of PC. -/

namespace Sys2Proof.Machine

/-! ## One write, then a fixed advance -/

/-- Two writes one after the other change what either of them changes. -/
theorem frame_trans {s t u : State} {changed changed' : List (Fin 12)} {stored stored' : List Int}
    (h : Claims.Frame s t changed stored) (h' : Claims.Frame t u changed' stored') :
    Claims.Frame s u (changed ++ changed') (stored ++ stored') := by
  obtain ⟨hregs, hmem, hime, hmode⟩ := h
  obtain ⟨hregs', hmem', hime', hmode'⟩ := h'
  refine ⟨fun i hi => ?_, fun a ha => ?_, hime'.trans hime, hmode'.trans hmode⟩
  · rw [List.mem_append, not_or] at hi
    exact (hregs' i hi.2).trans (hregs i hi.1)
  · rw [List.mem_append, not_or] at ha
    exact (hmem' a ha.2).trans (hmem a ha.1)

/-- A byte store at a mapped address changes that byte of memory and nothing else. -/
theorem frame_write (s : State) {a : Int} (v : Byte) (ha : accessible 1 a = true) :
    Claims.Frame s { s with mem := s.mem.write a.toNat v } [] [a] :=
  ⟨fun _ _ => rfl, fun _ hb => memRead8_write_ne s.mem v (nonneg_of_accessible ha) (List.ne_of_not_mem_cons hb), rfl,
    rfl⟩

/-- No 8-bit view lies in PC (R33). -/
theorem reg8_setReg16_pc (s : State) (r : Reg8) (w : Word) : (s.setReg16 .pc w).reg8 r = s.reg8 r := by
  rw [reg8_setReg16]
  cases r <;> rfl

/-- An effect that leaves PC alone completes with a fixed advance in range; the advance adds PC's two bytes to what the
effect changed. -/
theorem commit_advance_frame {s t : State} {changed : List (Fin 12)} {stored : List Int} (k : Nat)
    (hframe : Claims.Frame s t changed stored) (hpc : t.pc = s.pc) (hk : s.pc.toNat + k ≤ 0xFFFF) :
    ∃ w : Word, commit s (t.advance k) = .next (t.setReg16 .pc w) ∧
      (t.setReg16 .pc w).pc.toNat = s.pc.toNat + k ∧
      Claims.Frame s (t.setReg16 .pc w) (changed ++ [10, 11]) stored := by
  obtain ⟨w, hnext, hw⟩ := commit_advance_ok s t k (by rwa [hpc])
  have hboth := frame_trans hframe (frame_setReg16 t .pc w)
  rw [List.append_nil] at hboth
  refine ⟨w, hnext, ?_, hboth⟩
  rw [pc_setReg16, if_pos rfl, hw, hpc]

section completes
variable (s : State) (k : Nat)

theorem commit_setReg8_advance_completes (r : Reg8) (v : Byte) (hk : s.pc.toNat + k ≤ 0xFFFF) :
    ∃ t, commit s ((s.setReg8 r v).advance k) = .next t ∧ t.reg8 r = v ∧ t.pc.toNat = s.pc.toNat + k ∧
      Claims.Frame s t [reg8Offset r, 10, 11] [] := by
  obtain ⟨w, hnext, hpc, hframe⟩ := commit_advance_frame k (frame_setReg8 s r v) (pc_setReg8 s r v) hk
  refine ⟨_, hnext, ?_, hpc, hframe⟩
  rw [reg8_setReg16_pc, reg8_setReg8, if_pos rfl]

/-- LD r16,d16 completes for every pair but PC itself. -/
theorem loadPair_completes {r : Reg16} (hr : r ≠ .pc) (d16 : Word) (hk : s.pc.toNat + 3 ≤ 0xFFFF) :
    ∃ t, loadPair r d16 s = .next t ∧ t.reg16 r = d16 ∧ t.pc.toNat = s.pc.toNat + 3 ∧
      Claims.Frame s t [reg16LowOffset r, reg16HighOffset r, 10, 11] [] := by
  have hsame : (s.setReg16 r d16).pc = s.pc := by rw [pc_setReg16, if_neg hr]
  obtain ⟨w, hnext, hpc, hframe⟩ := commit_advance_frame 3 (frame_setReg16 s r d16) hsame hk
  refine ⟨_, hnext, ?_, hpc, hframe⟩
  rw [reg16_setReg16, if_neg hr, reg16_setReg16, if_pos rfl]

theorem storeByte_completes {a : Int} (v : Byte) (ha : accessible 1 a = true) (hk : s.pc.toNat + k ≤ 0xFFFF) :
    ∃ t, storeByte a v k s = .next t ∧ memRead8 t.mem a = .ok v ∧ t.pc.toNat = s.pc.toNat + k ∧
      Claims.Frame s t [10, 11] [a] := by
  obtain ⟨w, hnext, hw⟩ := storeByte_ok s v k ha hk
  refine ⟨_, hnext, memRead8_write_same s.mem v ha, ?_, frame_trans (frame_write s v ha) (frame_setReg16 _ .pc w)⟩
  rw [pc_setReg16, if_pos rfl, hw]

end completes

/-! ## The loads and stores that complete -/

/-- Settles O40. -/
theorem loadPairImmediateWritesThePair : Obligations.LoadPairImmediateWritesThePair := fun s d16 hk =>
  ⟨loadPair_completes s (r := .bc) (by decide) d16 hk, loadPair_completes s (r := .de) (by decide) d16 hk,
    loadPair_completes s (r := .hl) (by decide) d16 hk, loadPair_completes s (r := .sp) (by decide) d16 hk⟩

/-- Settles O41. -/
theorem storeImmediateAtHlWritesOneByte : Obligations.StoreImmediateAtHlWritesOneByte := by
  intro s d8 hk ha
  rw [exec_ldIndHlD8]
  exact storeByte_completes s 2 d8 ha hk

/-- Settles O42. -/
theorem loadAImmediateWritesA : Obligations.LoadAImmediateWritesA := by
  intro s d8 hk
  rw [exec_ldAD8]
  exact commit_setReg8_advance_completes s 2 .a d8 hk

/-- Settles O43: the 49 instructions are one operation, a write of the source's value to the destination. -/
theorem loadRegisterCopiesTheSource : Obligations.LoadRegisterCopiesTheSource := by
  intro s i dst src hi hk
  rw [exec_loadRegister s hi]
  exact commit_setReg8_advance_completes s 1 dst (s.reg8 src) hk

/-- Settles O44. -/
theorem storeAWritesOneByte : Obligations.StoreAWritesOneByte := by
  intro s a16 a8
  rw [exec_ldIndA16A, exec_ldhIndA8A]
  exact ⟨fun hk ha => storeByte_completes s 3 (s.reg8 .a) ha hk, fun hk ha => storeByte_completes s 2 (s.reg8 .a) ha hk,
    rfl, addrA8_eq a8⟩

/-- Settles O45: the byte is read before A is written. -/
theorem loadAHighPageReadsTheByte : Obligations.LoadAHighPageReadsTheByte := by
  intro s a8 v hk hread
  rw [exec_ldhAIndA8, addrA8_eq, hread, bind_ok]
  exact commit_setReg8_advance_completes s 2 .a v hk

/-! ## The data accesses that fault -/

/-- The I/O page has no bytes between 0xFF4B and High RAM (R75). -/
theorem addrA8_unmapped {a8 : Byte} (hlo : 0x4C ≤ a8.toNat) (hhi : a8.toNat ≤ 0x7F) :
    accessible 1 (addrA8 a8) = false := by
  rw [← Bool.not_eq_true, accessible_one_iff, addrA8_eq]
  omega

/-- Settles O57: the access comes before the advance, so its fault is taken whatever PC is. -/
theorem unmappedDataAddressFaults : Obligations.UnmappedDataAddressFaults := by
  intro s d8 a8 a16
  rw [exec_ldIndHlD8, exec_ldIndA16A, exec_ldhIndA8A, exec_ldhAIndA8, ← addrA8_eq]
  refine ⟨storeByte_error s d8 2, storeByte_error s (s.reg8 .a) 3, fun hlo hhi => ?_⟩
  have ha := addrA8_unmapped hlo hhi
  refine ⟨storeByte_error s (s.reg8 .a) 2 ha, ?_⟩
  rw [memRead8_of_unmapped _ ha, bind_error, commit_error]
  rfl

end Sys2Proof.Machine
end

section
/-! PROOFS. The family of spec/42_arithmetic.md: XOR, AND and CP complete. Each is a write of F, for XOR and AND after one of
A, followed by a fixed advance of PC; the flags read back are those of the F byte written. -/

namespace Sys2Proof.Machine

/-! ## The flags of a byte written to F -/

theorem flag_of_f {t : State} {f : Byte} (h : t.reg8 .f = f) (x : Flag) : t.flag x = getFlag f x :=
  congrArg (getFlag · x) h

theorem getFlag_flagsAfterAnd (f res : Byte) :
    getFlag (flagsAfterAnd f res) .zero = decide (res = 0x00) ∧ getFlag (flagsAfterAnd f res) .halfCarry = true ∧
      getFlag (flagsAfterAnd f res) .subtraction = false ∧ getFlag (flagsAfterAnd f res) .carry = false := by
  simp [flagsAfterAnd, beq_eq_decide]

theorem getFlag_flagsAfterCp (f a d8 : Byte) (nhc : Bool × Bool × Bool) :
    getFlag (flagsAfterCp f a d8 nhc) .zero = decide (a = d8) ∧
      (getFlag (flagsAfterCp f a d8 nhc) .subtraction, getFlag (flagsAfterCp f a d8 nhc) .halfCarry,
        getFlag (flagsAfterCp f a d8 nhc) .carry) = nhc := by
  simp [flagsAfterCp, beq_eq_decide]

/-! ## A write of A and F, then a fixed advance -/

theorem commit_setA_setF_advance_completes (s : State) (k : Nat) (a f : Byte) (hk : s.pc.toNat + k ≤ 0xFFFF) :
    ∃ t, commit s (((s.setReg8 .a a).setReg8 .f f).advance k) = .next t ∧ t.reg8 .a = a ∧ t.reg8 .f = f ∧
      t.pc.toNat = s.pc.toNat + k ∧ Claims.Frame s t [0, 1, 10, 11] [] := by
  rw [setReg8_comm s (by decide : Reg8.a ≠ .f)]
  have hwrites : Claims.Frame s ((s.setReg8 .f f).setReg8 .a a) [0, 1] [] :=
    frame_trans (frame_setReg8 s .f f) (frame_setReg8 (s.setReg8 .f f) .a a)
  obtain ⟨w, hnext, hpc, hframe⟩ := commit_advance_frame k hwrites (by rw [pc_setReg8, pc_setReg8]) hk
  exact ⟨_, hnext, by simp [reg8_setReg16_pc], by simp, hpc, hframe⟩

/-! ## The three instructions -/

/-- Settles O46: a byte XOR itself is 0, and F is written whole. -/
theorem xorAAClearsAAndSetsOnlyZero : Obligations.XorAAClearsAAndSetsOnlyZero := by
  intro s hk
  rw [exec_xorAA, BitVec.xor_self, flagsAfterXor_eq]
  obtain ⟨t, hnext, ha, hf, hpc, hframe⟩ := commit_setA_setF_advance_completes s 1 0x00 0x10 hk
  have hflag := flag_of_f hf
  exact ⟨t, hnext, ha, hf, hflag .zero, hflag .halfCarry, hflag .subtraction, hflag .carry, hpc, hframe⟩

/-- Settles O47: the flags of the F byte written, Zero among them, are those of the result (D3). -/
theorem andImmediateResultAndFlags : Obligations.AndImmediateResultAndFlags := by
  intro s d8 hk
  rw [exec_andD8]
  obtain ⟨t, hnext, ha, hf, hpc, hframe⟩ :=
    commit_setA_setF_advance_completes s 2 (s.reg8 .a &&& d8) (flagsAfterAnd (s.reg8 .f) (s.reg8 .a &&& d8)) hk
  obtain ⟨hz, hh, hn, hc⟩ := getFlag_flagsAfterAnd (s.reg8 .f) (s.reg8 .a &&& d8)
  have hflag := flag_of_f hf
  refine ⟨t, hnext, ha, (hflag _).trans hz, (hflag _).trans hh, (hflag _).trans hn, (hflag _).trans hc, ?_, hpc, hframe⟩
  rw [hf]
  exact flagsAfterAnd_lowNibble _ _

/-- Settles O48: N, H and C are `P_CP_NHC` of A and the flags before the write of F, whatever it answers. -/
theorem compareImmediateFlags : Obligations.CompareImmediateFlags := by
  intro s d8 hk
  rw [exec_cpD8]
  obtain ⟨t, hnext, hf, hpc, hframe⟩ := commit_setReg8_advance_completes s 2 .f
    (flagsAfterCp (s.reg8 .f) (s.reg8 .a) d8 (cpNhc s d8)) hk
  obtain ⟨hz, hnhc⟩ := getFlag_flagsAfterCp (s.reg8 .f) (s.reg8 .a) d8 (cpNhc s d8)
  have hflag := flag_of_f hf
  refine ⟨t, hnext, (hflag _).trans hz, ?_, ?_, hpc, hframe⟩
  · rw [hflag, hflag, hflag]
    exact hnhc
  · rw [hf]
    exact flagsAfterCp_lowNibble _ _ _ _

end Sys2Proof.Machine
end

section
/-! PROOFS. The family of spec/43_control.md: jumps, CALL and RET, where they complete and where they fault. A relative jump
is one advance of PC; CALL and RET are a push and a pop followed by the overwrite of PC. -/

namespace Sys2Proof.Machine

/-! ## Relative jumps -/

/-- The displacement of a taken jump counts from the next instruction (R200, R201). -/
theorem pc_add_taken_or_not (taken : Prop) [Decidable taken] (pc r8 : Int) :
    pc + (if taken then 2 + r8 else 2) = pc + 2 + (if taken then r8 else 0) := by
  split <;> omega

/-- An advance to a next PC in range completes and changes PC only. -/
theorem commit_advance_completes {s : State} {k next : Int} (hnext : (s.pc.toNat : Int) + k = next) (hlo : 0 ≤ next)
    (hhi : next ≤ 0xFFFF) :
    ∃ t, commit s (s.advance k) = .next t ∧ (t.pc.toNat : Int) = next ∧ Claims.Frame s t [10, 11] [] := by
  obtain ⟨w, hcommit, hw⟩ := commit_advance_ok_int s s k (by omega)
  refine ⟨_, hcommit, ?_, frame_setReg16 s .pc w⟩
  rw [pc_setReg16, if_pos rfl, hw, hnext]

/-- An advance to a next PC out of range takes PcOutOfRange of the exact sum (D27). -/
theorem commit_advance_takesFault {s : State} {k next : Int} (hnext : (s.pc.toNat : Int) + k = next)
    (hout : next < 0 ∨ 0xFFFF < next) : Claims.TakesFault (commit s (s.advance k)) s (.pcOutOfRange next) := by
  subst hnext
  exact commit_advance_error s s k (by omega)

/-- Settles O49. -/
theorem jumpRelativeAddsTheDisplacement : Obligations.JumpRelativeAddsTheDisplacement := by
  intro s r8 hlo hhi
  rw [exec_jrR8]
  exact commit_advance_completes (by omega) hlo hhi

/-- Settles O50: taken or not, the jump is an advance to `next`. -/
theorem jumpRelativeOnZeroBothWays : Obligations.JumpRelativeOnZeroBothWays := by
  intro s r8 next hlo hhi
  rw [exec_jrNzR8, exec_jrZR8]
  exact ⟨fun h => commit_advance_completes ((pc_add_taken_or_not _ _ _).trans h.symm) hlo hhi,
    fun h => commit_advance_completes ((pc_add_taken_or_not _ _ _).trans h.symm) hlo hhi⟩

/-- Settles O58. -/
theorem relativeJumpOutOfRangeFaults : Obligations.RelativeJumpOutOfRangeFaults := by
  intro s r8 next hout
  rw [exec_jrR8, exec_jrNzR8, exec_jrZR8]
  exact ⟨fun h => commit_advance_takesFault (by omega) hout,
    fun h => commit_advance_takesFault ((pc_add_taken_or_not _ _ _).trans h.symm) hout,
    fun h => commit_advance_takesFault ((pc_add_taken_or_not _ _ _).trans h.symm) hout⟩

/-! ## Absolute jumps -/

/-- A jump overwrites PC and changes nothing else. -/
theorem frame_jump (s : State) (target : Word) : Claims.Frame s (s.jump target) [10, 11] [] :=
  frame_setReg16 s .pc target

theorem sp_jump (s : State) (target : Word) : (s.jump target).reg16 .sp = s.reg16 .sp := by
  rw [State.jump, reg16_setReg16, if_neg (by decide)]

/-- Settles O51. -/
theorem jumpAbsoluteSetsPc : Obligations.JumpAbsoluteSetsPc := fun s a16 =>
  ⟨s.jump a16, exec_jpA16 s a16, pc_jump s a16, frame_jump s a16⟩

/-! ## CALL and RET -/

/-- A push within one region stores its value at the push address, low byte first, and moves SP there (R85). -/
theorem push_completes {s : State} (v : Word) (h : accessible 2 (s.pushAddress.toNat : Int) = true) :
    ∃ t, s.push v = .ok t ∧ t.reg16 .sp = s.reg16 .sp - 2 ∧
      memRead8 t.mem s.pushAddress.toNat = .ok (v.extractLsb' 0 8) ∧
      memRead8 t.mem ((s.pushAddress.toNat : Int) + 1) = .ok (v.extractLsb' 8 8) ∧
      Claims.Frame s t [8, 9] [(s.pushAddress.toNat : Int), (s.pushAddress.toNat : Int) + 1] := by
  obtain ⟨m, hwrite, -, hlow, hhigh, -⟩ := wordStoreIsLittleEndianAndReadBack s.mem _ v h
  obtain ⟨hcompletes, -, -⟩ := pushThenPopGivesTheValueBack s v
  obtain ⟨t, -, hpush, hsp, -, -, hframe⟩ := hcompletes h
  obtain rfl := Except.ok.inj ((push_of_memWrite16 hwrite).symm.trans hpush)
  exact ⟨_, hpush, hsp, hlow, hhigh, hframe⟩

/-- Settles O52: the jump after the push leaves SP and the bytes stored as they are. -/
theorem callPushesTheReturnAddress : Obligations.CallPushesTheReturnAddress := by
  intro s a16 h
  obtain ⟨t, hpush, hsp, hlow, hhigh, hframe⟩ := push_completes (s.pc + 3) h
  refine ⟨t.jump a16, ?_, pc_jump t a16, (sp_jump t a16).trans hsp, hlow, hhigh, frame_trans hframe (frame_jump t a16)⟩
  rw [exec_callA16, hpush]
  rfl

/-- Settles O53: the pop writes SP only, and the jump PC only. -/
theorem returnPopsTheTarget : Obligations.ReturnPopsTheTarget := by
  intro s target hread
  refine ⟨(s.setReg16 .sp (s.reg16 .sp + 2)).jump target, ?_, pc_jump _ target, ?_,
    frame_trans (frame_setReg16 s .sp _) (frame_jump _ target)⟩
  · rw [exec_ret, pop_of_memRead16 hread]
    rfl
  · rw [sp_jump, reg16_setReg16, if_pos rfl]

/-- Settles O59: the access comes before any write, so its fault is that of the push or the pop. -/
theorem stackAccessOutsideOneRegionFaults : Obligations.StackAccessOutsideOneRegionFaults := by
  intro s a16
  refine ⟨fun h => ?_, fun h => ?_⟩
  · rw [exec_callA16, push_eq, State.pushAddress, h]
    rfl
  · rw [exec_ret, pop_eq, h]
    rfl

end Sys2Proof.Machine
end

section
/-! PROOFS. The family of spec/44_bit.md: RES 0,A is a masked write of A and a fixed advance. -/

namespace Sys2Proof.Machine

/-- The mask 0xFE clears bit 0 of a byte and keeps the others (R220). -/
theorem getLsbD_and_0xFE (a : Byte) {k : Nat} (hk : k < 8) :
    (a &&& 0xFE).getLsbD k = if k = 0 then false else a.getLsbD k := by
  have hmask : ∀ k < 8, (0xFE : Byte).getLsbD k = decide (k ≠ 0) := by decide
  rw [BitVec.getLsbD_and, hmask k hk]
  by_cases h : k = 0 <;> simp [h]

/-- Settles O54: only A is written, so F stays within the frame. -/
theorem resetBitClearsBitZeroOfA : Obligations.ResetBitClearsBitZeroOfA := by
  intro s hk
  rw [exec_res0A]
  obtain ⟨t, hnext, ha, hpc, hframe⟩ := commit_setReg8_advance_completes s 2 .a (s.reg8 .a &&& 0xFE) hk
  refine ⟨t, hnext, ?_, fun k hlo hhi => ?_, hpc, hframe⟩
  · rw [ha, getLsbD_and_0xFE _ (by decide), if_pos rfl]
  · rw [ha, getLsbD_and_0xFE _ hhi, if_neg (by omega)]

end Sys2Proof.Machine
end

section
/-! PROOFS. The family of spec/45_misc.md: NOP is a fixed advance of PC, and DI one of the state whose IME it cleared. -/

namespace Sys2Proof.Machine

/-- A fixed advance in range completes and changes only PC of the state it advances. -/
theorem commit_fixedAdvance_completes (s t : State) (k : Nat) (hk : t.pc.toNat + k ≤ 0xFFFF) :
    ∃ u, commit s (t.advance k) = .next u ∧ u.pc.toNat = t.pc.toNat + k ∧ Claims.Frame t u [10, 11] [] := by
  obtain ⟨w, hnext, hw⟩ := commit_advance_ok s t k hk
  refine ⟨_, hnext, ?_, frame_setReg16 t .pc w⟩
  rw [pc_setReg16, if_pos rfl, hw]

/-- Settles O39. -/
theorem nopOnlyAdvancesPc : Obligations.NopOnlyAdvancesPc := by
  intro s hk
  rw [exec_nop]
  exact commit_fixedAdvance_completes s s 1 hk

/-- Settles O55: the advance keeps the cleared IME, and clearing IME touches no register, memory or mode (R231, D12). -/
theorem disableInterruptsClearsIme : Obligations.DisableInterruptsClearsIme := by
  intro s hk
  rw [exec_di]
  obtain ⟨t, hnext, hpc, hregs, hmem, hime, hmode⟩ := commit_fixedAdvance_completes s (s.setIme 0x00) 1 hk
  exact ⟨t, hnext, hime, hpc, hregs, hmem, hmode⟩

end Sys2Proof.Machine
end

section
/-! PROOFS. The family of spec/60_exceptions.md: which faults a step raises, where PcOutOfRange cannot be one of them, and
where it must. -/

namespace Sys2Proof.Machine

/-! ## The faults of a step -/

/-- Settles O31: a completed instruction leaves the mode Running, so a recorded fault is one of the fetch, MemoryFault or
UnknownOpcode at PC, or one of an effect, MemoryFault or PcOutOfRange. -/
theorem stepsRaiseOnlyThreeFaults : Obligations.StepsRaiseOnlyThreeFaults := by
  intro gk s t f hm ht hf
  rcases stepWith_cases gk hm with ⟨g, hfetch, hg⟩ | ⟨-, u, -, -, hu, hc⟩ | ⟨-, g, -, hg, heffect⟩
  · cases hg.symm.trans ht
    cases hf
    rcases fetch_error hfetch with ⟨a, ha, -⟩ | ⟨key, hkey, -⟩
    · exact .inl ⟨a, ha⟩
    · exact .inr (.inl ⟨key, hkey⟩)
  · cases hu.symm.trans ht
    rw [hc.mode, hm] at hf
    cases hf
  · cases hg.symm.trans ht
    cases hf
    rcases heffect with ⟨a, ha, -⟩ | ⟨n, hn, -⟩
    · exact .inl ⟨a, ha⟩
    · exact .inr (.inr ⟨n, hn⟩)

/-! ## A 16-bit immediate that was read lies below the top -/

/-- The key at PC has at least one byte. -/
theorem fetchKey_length_pos {s : State} {key : Word} {n : Nat} (h : fetchKey s = .ok (key, n)) : 0 < n := by
  unfold fetchKey at h
  cases hb0 : memRead8 s.mem s.pc.toNat with
  | error f => rw [hb0, bind_error] at h; cases h
  | ok b0 =>
    rw [hb0, bind_ok] at h
    split at h
    · cases hb1 : memRead8 s.mem ((s.pc.toNat : Int) + 1) with
      | error f => rw [hb1] at h; cases h
      | ok b1 => rw [hb1] at h; cases h; decide
    · cases h; decide

/-- A fetched operand is the immediate its template builds from, and one of two bytes was read within one region. -/
theorem fetchOperand_ok {m : Memory} {a : Int} {t : Template} {i : Instr} (h : fetchOperand m a t = .ok i) :
    ∃ operands, t.Builds operands i ∧ (operands.length = 2 → accessible 2 a = true) := by
  cases t with
  | op j => cases h; exact ⟨[], .op _, nofun⟩
  | opI8 build =>
    unfold fetchOperand at h
    cases hb : memRead8 m a with
    | error f => rw [hb] at h; cases h
    | ok b => rw [hb] at h; cases h; exact ⟨[b], .opI8 build b, nofun⟩
  | opI16 build =>
    rw [fetchOperand, memRead16_eq] at h
    split at h
    · next ha => cases h; exact ⟨[_, _], .opI16 build _ _, fun _ => ha⟩
    · cases h

/-- The bytes of an instruction after an unprefixed opcode are the immediate it was built from. -/
theorem operands_of_encode {row : Row} {operands immediate : List Byte} {i : Instr} {b0 : Byte}
    (h : row.Encodes operands i) (hi : encode i = b0 :: immediate) (hb0 : b0 ≠ cbMarker) : operands = immediate := by
  have hbytes := hi.symm.trans h.bytes
  unfold opcodeOfKey at hbytes
  split at hbytes
  · exact (List.cons.inj hbytes).2.symm
  · exact absurd (List.cons.inj hbytes).1 hb0

/-- The instructions with the 16-bit immediate `w` (R170, R174, R202, R203). -/
def wordForms (w : Word) : List Instr :=
  [.ldBcD16 w, .ldDeD16 w, .ldHlD16 w, .ldSpD16 w, .ldIndA16A w, .jpA16 w, .callA16 w]

theorem encode_wordForms (w : Word) : ∀ i ∈ wordForms w, ∃ b0, encode i = b0 :: immediate16 w ∧ b0 ≠ cbMarker := by
  simp only [wordForms, List.forall_mem_cons]
  exact ⟨⟨_, rfl, by decide⟩, ⟨_, rfl, by decide⟩, ⟨_, rfl, by decide⟩, ⟨_, rfl, by decide⟩, ⟨_, rfl, by decide⟩,
    ⟨_, rfl, by decide⟩, ⟨_, rfl, by decide⟩, nofun⟩

/-- The immediate's two bytes lie in one region above PC, and 0xFFFF, a region of its own, is the second byte of none. -/
theorem pc_of_fetch_wordForms {gk : Bool} {s : State} {i : Instr} {w : Word} (hfetch : fetch gk s = .ok i)
    (hi : i ∈ wordForms w) : s.pc.toNat + 3 ≤ 0xFFFF := by
  obtain ⟨key, n, row, hkey, hrow, hoperand⟩ := fetch_ok hfetch
  obtain ⟨operands, hbuilds, hregion⟩ := fetchOperand_ok hoperand
  obtain ⟨hmem, -, -⟩ := lookup_some hrow
  obtain ⟨b0, hencode, hb0⟩ := encode_wordForms w i hi
  obtain rfl := operands_of_encode (table_sound row hmem operands i hbuilds) hencode hb0
  have hn := fetchKey_length_pos hkey
  have htwo := (accessible_two_iff _).1 (hregion rfl)
  omega

/-! ## Where PcOutOfRange cannot be raised -/

/-- The outcome of an instruction that completes in the mode of `s`, or takes a memory fault. -/
def CompletesOrMemoryFault (s : State) (r : Result) : Prop :=
  (∃ t, r = .next t ∧ t.mode = s.mode) ∨ ∃ a, r = .next (s.enterFaulted (.memoryFault a))

theorem CompletesOrMemoryFault.not_pcOutOfRange {s t : State} {r : Result} (h : CompletesOrMemoryFault s r)
    (hm : s.mode = .running) (ht : r = .next t) (n : Int) : t.mode ≠ .faulted (.pcOutOfRange n) := by
  intro hn
  rcases h with ⟨u, hu, hmode⟩ | ⟨a, ha⟩
  · cases hu.symm.trans ht
    rw [hmode, hm] at hn
    cases hn
  · cases ha.symm.trans ht
    cases hn

theorem loadPair_completesOrMemoryFault (s : State) {r : Reg16} (hr : r ≠ .pc) (w : Word)
    (hpc : s.pc.toNat + 3 ≤ 0xFFFF) : CompletesOrMemoryFault s (loadPair r w s) := by
  obtain ⟨t, ht, -, -, -, -, -, hmode⟩ := loadPair_completes s hr w hpc
  exact .inl ⟨t, ht, hmode⟩

theorem storeByte_completesOrMemoryFault (s : State) (a : Int) (v : Byte) {k : Nat} (hk : s.pc.toNat + k ≤ 0xFFFF) :
    CompletesOrMemoryFault s (storeByte a v k s) := by
  cases ha : accessible 1 a with
  | true =>
    obtain ⟨t, ht, -, -, -, -, -, hmode⟩ := storeByte_completes s k v ha hk
    exact .inl ⟨t, ht, hmode⟩
  | false => exact .inr ⟨a, storeByte_error s v k ha⟩

theorem call_completesOrMemoryFault (s : State) (w : Word) : CompletesOrMemoryFault s (exec (.callA16 w) s) := by
  rw [exec_callA16, push_eq]
  split
  · exact .inl ⟨_, rfl, rfl⟩
  · exact .inr ⟨_, rfl⟩

theorem ret_completesOrMemoryFault (s : State) : CompletesOrMemoryFault s (exec .ret s) := by
  rw [exec_ret, pop_eq]
  split
  · exact .inl ⟨_, rfl, rfl⟩
  · exact .inr ⟨_, rfl⟩

/-- The loads advance PC by 3; JP and CALL overwrite it, with no range check. -/
theorem exec_wordForms_completesOrMemoryFault (s : State) (w : Word) (hpc : s.pc.toNat + 3 ≤ 0xFFFF) :
    ∀ i ∈ wordForms w, CompletesOrMemoryFault s (exec i s) := by
  simp only [wordForms, List.forall_mem_cons]
  exact ⟨loadPair_completesOrMemoryFault s (r := .bc) (by decide) w hpc,
    loadPair_completesOrMemoryFault s (r := .de) (by decide) w hpc,
    loadPair_completesOrMemoryFault s (r := .hl) (by decide) w hpc,
    loadPair_completesOrMemoryFault s (r := .sp) (by decide) w hpc,
    by rw [exec_ldIndA16A]; exact storeByte_completesOrMemoryFault s (addrA16 w) (s.reg8 .a) hpc,
    .inl ⟨s.jump w, exec_jpA16 s w, rfl⟩,
    call_completesOrMemoryFault s w, nofun⟩

/-- Settles O38: a 16-bit immediate that was read leaves room for an advance by 3, and RET checks no range. -/
theorem wordImmediateFormsAndRetNeverLeaveTheRange : Obligations.WordImmediateFormsAndRetNeverLeaveTheRange := by
  intro gk s t i w hm hfetch hi ht
  rw [stepWith_running hm, hfetch, orFault_ok] at ht
  have hcases : i ∈ wordForms w ∨ i ∈ [.ret] := List.mem_append.1 hi
  rcases hcases with hword | hret
  · have hpc := pc_of_fetch_wordForms hfetch hword
    exact ⟨(exec_wordForms_completesOrMemoryFault s w hpc i hword).not_pcOutOfRange hm ht, fun _ => hpc⟩
  · obtain rfl := List.mem_singleton.1 hret
    exact ⟨(ret_completesOrMemoryFault s).not_pcOutOfRange hm ht, fun hne => absurd rfl hne⟩

/-! ## Where PcOutOfRange is raised -/

/-- An effect that leaves PC alone, then an advance past 0xFFFF: the effect is discarded with the fault (D5). -/
theorem commit_advance_pastTop {s t : State} {k : Nat} (hpc : t.pc = s.pc) (hk : 0xFFFF < s.pc.toNat + k) :
    Claims.TakesFault (commit s (t.advance k)) s (.pcOutOfRange ((s.pc.toNat : Int) + k)) := by
  rw [← hpc] at hk ⊢
  exact commit_advance_error s t k (by omega)

theorem setReg8_advance_pastTop {s : State} {k : Nat} (r : Reg8) (v : Byte) (hk : 0xFFFF < s.pc.toNat + k) :
    Claims.TakesFault (commit s ((s.setReg8 r v).advance k)) s (.pcOutOfRange ((s.pc.toNat : Int) + k)) :=
  commit_advance_pastTop (pc_setReg8 s r v) hk

theorem setA_setF_advance_pastTop {s : State} {k : Nat} (a f : Byte) (hk : 0xFFFF < s.pc.toNat + k) :
    Claims.TakesFault (commit s (((s.setReg8 .a a).setReg8 .f f).advance k)) s
      (.pcOutOfRange ((s.pc.toNat : Int) + k)) :=
  commit_advance_pastTop (by rw [pc_setReg8, pc_setReg8]) hk

/-- A byte was stored, and the store is discarded. -/
theorem storeByte_pastTop {s : State} {a : Int} {k : Nat} (v : Byte) (ha : accessible 1 a = true)
    (hk : 0xFFFF < s.pc.toNat + k) :
    Claims.TakesFault (storeByte a v k s) s (.pcOutOfRange ((s.pc.toNat : Int) + k)) := by
  unfold storeByte
  rw [store8_eq, if_pos ha]
  exact commit_advance_pastTop (t := { s with mem := s.mem.write a.toNat v }) rfl hk

/-- Settles O56: each form is writes outside PC and then its fixed advance. -/
theorem fixedAdvancePastTheTopFaults : Obligations.FixedAdvancePastTheTopFaults := by
  rintro s i d8 a8 k hk (⟨rfl, hone⟩ | ⟨rfl, htwo⟩)
  · rcases hone with rfl | rfl | rfl | hld
    · rw [exec_nop]
      exact commit_advance_pastTop rfl hk
    · rw [exec_xorAA]
      exact setA_setF_advance_pastTop _ _ hk
    · rw [exec_di]
      exact commit_advance_pastTop (setIme_pc s 0x00) hk
    · obtain ⟨⟨dst, src⟩, hregs⟩ := Option.isSome_iff_exists.1 hld
      rw [exec_loadRegister s hregs]
      exact setReg8_advance_pastTop dst (s.reg8 src) hk
  · rcases htwo with rfl | rfl | rfl | rfl | ⟨rfl, ha⟩ | ⟨rfl | rfl, ha⟩
    · rw [exec_res0A]
      exact setReg8_advance_pastTop .a _ hk
    · rw [exec_ldAD8]
      exact setReg8_advance_pastTop .a d8 hk
    · rw [exec_andD8]
      exact setA_setF_advance_pastTop _ _ hk
    · rw [exec_cpD8]
      exact setReg8_advance_pastTop .f _ hk
    · rw [exec_ldIndHlD8]
      exact storeByte_pastTop d8 ha hk
    · rw [exec_ldhIndA8A]
      exact storeByte_pastTop (s.reg8 .a) ha hk
    · rw [exec_ldhAIndA8, memRead8_of_accessible _ ha, bind_ok]
      exact setReg8_advance_pastTop .a _ hk

end Sys2Proof.Machine
end

section
/-! PROOFS. The family of spec/70_reset_and_hazards.md: construction refuses an oversized image, and otherwise takes its
parameters. -/

namespace Sys2Proof.Machine

/-- A byte load at an offset in a region answers the byte stored there (R80). -/
theorem memRead8_of_offset {m : Memory} {b : Byte} (r : Region) {off : Nat} (h : off < r.view.size)
    (hb : m.read (r.view.base + off) = b) : memRead8 m ((r.view.base + off : Nat) : Int) = .ok b := by
  rw [memRead8_of_accessible m (accessible_of_offset r h), Int.toNat_natCast, hb]

/-- Settles O3: the length check decides; where it passes, each writable region holds its bytes of `P_MEM_INIT`, and a load
at any offset in the region answers them. -/
theorem constructionRefusesOversizedImagesAndTakesItsParameters :
    Obligations.ConstructionRefusesOversizedImagesAndTakesItsParameters := by
  intro image init ime
  refine ⟨construct_error init ime, fun hlen => ⟨_, construct_ok init ime hlen, rfl, rfl, ?_, ?_, ?_, ?_⟩⟩
  · exact fun i h => memRead8_of_offset .workingRam h (initialMemory_workingRam h)
  · exact fun i h => memRead8_of_offset .ioPorts h (initialMemory_ioPorts h)
  · exact fun i h => memRead8_of_offset .highRam h (initialMemory_highRam h)
  · exact memRead8_of_offset .interruptEnable (off := 0) Nat.one_pos initialMemory_interruptEnable

end Sys2Proof.Machine
end
